-- ==== Sys2Proof/Word.lean ====
section
/-! DEFINITION. Word.lean: the words of the block (spec/00_scope.md R7, R8: bytes, 16-bit fields, nine-byte windows; every value unsigned). -/

namespace Sys2Proof

/-- A byte, an unsigned number `0..255` (R7). -/
abbrev Byte := BitVec 8

/-- A 16-bit field (`distance`, `strength`: R5). -/
abbrev Half := BitVec 16

/-- Nine bytes by offset, offset 0 the first to arrive (R7, R27): the frame buffer `buf[0..8]`
(R11) and a wire frame `B0..B8` (R39). DESIGN CHOICE (log entry 9): nine registers, no list of
cells. -/
abbrev Window := Vector Byte 9

/-- A frame as one 72-bit word `F`, `F[8k+7:8k] = Bk` (R7, R40; the spec's own numbering, D13). -/
abbrev FrameWord := BitVec 72

end Sys2Proof
end

