-- ==== Sys2Proof/Config.lean ====
section
/-! DEFINITION. Config.lean: the open width `EW` of the transport-error register (spec/00_scope.md R6) and what that register and the RX channel carry. The open type `TErr` is no constant: it is a type argument of the block and of all it does. -/

namespace Sys2Proof.Config

/-- `EW`: the width in bits of the register `terr`, `EW >= 0`, OPEN (R6, D8). No body: no proof can
learn which width it is, so a claim holds for every width. -/
opaque EW : Nat

/-- The contents of the register `terr` and of `rx_err[EW-1:0]`: `EW` bits (R6, R16, R50). The type
`TErr` of the errors themselves is a type argument of `Machine.Block`, of `FrameError` and of every
operation on them, and nothing is assumed of it (R6). The machine, whose state must be plain data,
is these at the bits that hold an error (log entry 2). -/
abbrev ErrBits := BitVec EW

end Sys2Proof.Config
end

