-- ==== Sys2Proof/Syntax.lean ====
section
/-! DEFINITION. Syntax.lean: the instructions (one constructor per row of spec/opcode_table.json), the words of the channels they travel on (spec/30_encoding.md section 4), and the records of the Frame Model. -/

namespace Sys2Proof

/-- One constructor per row of spec/opcode_table.json, in the table's order. -/
inductive Instr where
  /-- `DATA` (R40, R46, R60): a wire frame. The header is the opcode and is implied; the other
  fields of R40 are the operands, the checksum byte among them (`WellFormed` says it is right). -/
  | data (distance strength : Half) (integrationTime reserved checksum : Byte)
  /-- `CHKHDR` (R54): the header check, a pure function of `buf`. -/
  | chkhdr
  /-- `CHKSUM` (R55): the checksum check, a pure function of `buf`. -/
  | chksum
  /-- `PARSE` (R56): the field extraction, a pure function of a validated `buf`. -/
  | parse
  /-- `DECODE_SP` (R62): the CMD event `START`. -/
  | decodeSp
  /-- `DECODE` (R53, R63): the pseudo-instruction, the same CMD event `START`. -/
  | decode
  /-- `CANCEL` (R68): the CMD event that abandons a waiting call. -/
  | cancel
  /-- `RXBYTE(b)` (R64): the byte source hands over one byte. -/
  | rxbyte (b : Byte)
  /-- `RXFAIL(e)` (R65): the byte source reports that the read cannot be completed;
  `e` as `rx_err[EW-1:0]` carries it (R50). -/
  | rxfail (e : Config.ErrBits)
  /-- `HDRSTEP` (R66): the internal step that judges the header. -/
  | hdrstep
  /-- `CSUMSTEP` (R67): the internal step that judges the checksum and extracts the Frame. -/
  | csumstep
  /-- `RESET` (R90): the reset input. -/
  | reset
  deriving DecidableEq, Repr

/-- One word of the RX channel (R50): `rx_kind`, `rx_data[7:0]`, `rx_err[EW-1:0]`. The payload of
the other kind is there on the wires and is ignored. -/
structure RxWord where
  kind : BitVec 1
  data : Byte
  err  : Config.ErrBits
  deriving DecidableEq, Repr

/-- What selects an instruction (R49, R50, R40, and the column "selected by" of the opcode map of
spec/30_encoding.md section 6): a word of a channel, the phase code for an internal step, or the
reset line. The pure functions are selected by nothing: the table gives them "no encoding". -/
inductive ChanWord where
  /-- Nine bytes of the wire, one whole window (R39, R48). -/
  | frame (w : Window)
  /-- The bit `cmd` of the CMD channel (R49). -/
  | cmd (bit : BitVec 1)
  /-- A word of the RX channel (R50). -/
  | rx (w : RxWord)
  /-- The code of `ph`, which selects `HDRSTEP` (2) or `CSUMSTEP` (3) (R66, R67). -/
  | phase (code : BitVec 3)
  /-- The reset input, asserted (R90): no encoding, not a CMD event. -/
  | resetLine
  deriving DecidableEq, Repr

/-- The Frame, "the decoded measurement record" (R14, glossary). -/
structure Frame where
  distance        : Half
  strength        : Half
  integrationTime : Byte
  deriving DecidableEq, Repr

/-- The `FrameError` "with exactly three variants" (R76, R80), of a transport whose errors have the
type `TErr`, of which nothing is assumed (R6). -/
inductive FrameError (TErr : Type) where
  | invalidStartFrame
  | invalidChecksum
  | readError (e : TErr)
  deriving DecidableEq, Repr

/-- What a call returns: `Ok(Frame)` or `Err(FrameError)` (R18, R88). -/
inductive CallResult (TErr : Type) where
  | ok (f : Frame)
  | err (e : FrameError TErr)
  deriving DecidableEq, Repr

/-- The three classes that partition the windows, tested in this order (R46). -/
inductive WindowClass where
  | badHdr
  | badSum
  | data
  deriving DecidableEq, Repr

end Sys2Proof
end

