-- ==== Sys2Proof/Machine/State.lean ====
section
/-! DEFINITION. Machine/State.lean: the state of the block (spec/10_state.md R10), the environment that offers events to it, the reasons a step can stop, and the state after reset. Plain data throughout. -/

namespace Sys2Proof.Machine

/-- The six phases of the register `ph` (R13). The codes 6 and 7 have no value here (R13, U10). -/
inductive Phase where
  | idle
  | awaitingBytes
  | headerCheck
  | checksumCheck
  | parsed
  | failed
  deriving DecidableEq, Repr

/-- The values of the register `err` (R15). -/
inductive ErrKind where
  | none
  | invalidStartFrame
  | invalidChecksum
  | readError
  deriving DecidableEq, Repr

/-- The state of the block: exactly the eight items of R10. The type `TErr` of the transport's errors
is an argument, and nothing is assumed of it (R6). -/
structure Block (TErr : Type) where
  /-- `buf[0..8]`, nine registers of 8 bits (R11). -/
  buf   : Window
  /-- `cnt`, values `0..9`; the type lacks `10..15` (R12, U10). -/
  cnt   : Fin 10
  /-- `ph`, the phase (R13). -/
  ph    : Phase
  /-- `DIST`, 16 bits (R14). -/
  dist  : Half
  /-- `STR`, 16 bits (R14). -/
  str   : Half
  /-- `ITIME`, 8 bits (R14). -/
  itime : Byte
  /-- `err`, the error kind (R15). -/
  err   : ErrKind
  /-- `terr`, a value of the opaque type `TErr` (R16). -/
  terr  : TErr
  deriving DecidableEq, Repr

/-- Who moves next. DESIGN CHOICE (log entry 1): the order in which the agents' offers are taken is
plain data of the environment, so every order the spec admits (R70, D26, U14) is some list of
turns. -/
inductive Turn where
  /-- The caller offers the head of its command list on CMD (R49). -/
  | caller
  /-- The byte source offers the head of its list on RX (R50). -/
  | source
  /-- Nothing is offered: the block takes its internal step if one is enabled (R66, R67). -/
  | block
  /-- The reset input is asserted (R90). -/
  | reset
  deriving DecidableEq, Repr

/-- The environment of the block: NOT state of the block (R23 (a)), the model's own fields (log
entry 1). What the caller and the byte source have still to offer, in order, and whose turn it is. -/
structure Env where
  /-- The command words the caller has still to offer, the head first. -/
  cmd   : List (BitVec 1)
  /-- The words the byte source has still to offer, the head first. -/
  rx    : List RxWord
  /-- The order of the turns; when it is used up only the block moves. -/
  turns : List Turn
  deriving DecidableEq, Repr

/-- The value a pure function of the Frame Model gives its evaluator (R54, R55, R56). -/
inductive FnValue where
  | hdrOk (v : Bool)
  | csumOk (v : Bool)
  | frame (f : Frame)
  deriving DecidableEq, Repr

/-- The state of the closed system: the block, its environment, and the value the last evaluated
`CHKHDR`, `CHKSUM` or `PARSE` gave. -/
structure State where
  /-- The block itself: all the state the spec gives it (R10), with the `EW` bits that hold an error in
  its register `terr` (R6, R16). -/
  block   : Block Config.ErrBits
  /-- The environment (the model's own: DESIGN CHOICE, log entry 1). -/
  env     : Env
  /-- The value the last `CHKHDR`, `CHKSUM` or `PARSE` gave its evaluator. The model's own
  observation (DESIGN CHOICE, log entry 5): no register of the block, read by no rule. -/
  fnValue : Option FnValue
  deriving DecidableEq, Repr

/-- Why the machine stops with a fault. -/
inductive Fault where
  /-- Raised by `RXBYTE` (and by `DATA`, which stands for nine of them) when `ph = AWAITING_BYTES` and
  `cnt = 9`: the write would go to offset 9, and "there is no offset 9 or above" (R25). Safe: no
  state reached from reset is of this kind (R20 (b)). DESIGN CHOICE (log entry 11). -/
  | bufOffset
  deriving DecidableEq, Repr

/-- Why the model gives an instruction no meaning. -/
inductive Refusal where
  /-- Raised by the dispatcher alone, for an instruction without a meaning; no arm of this model
  does. Safe. -/
  | notModelled (mnemonic : String)
  /-- Raised by `PARSE` evaluated on a buffer that has not passed both checks: "behavior is
  unspecified/undefined if called otherwise" (R56), treatment "refuse" (U1). Safe. -/
  | parseUnvalidated
  deriving DecidableEq, Repr

/-- The block right after its first `RESET` (R24, R90): `ph = IDLE`, `cnt = 0`, `err = NONE`. The
spec resets nothing else; `buf`, `DIST`, `STR`, `ITIME`, `terr` are given zero. DESIGN CHOICE (log
entry 3), unsafe: no claim may rest on these zeros. -/
def Block.reset : Block Config.ErrBits where
  buf   := #v[0, 0, 0, 0, 0, 0, 0, 0, 0]
  cnt   := 0
  ph    := .idle
  dist  := 0
  str   := 0
  itime := 0
  err   := .none
  terr  := 0

/-- The machine right after reset: the block reset, nothing offered, no function evaluated. -/
def State.reset : State where
  block   := Block.reset
  env     := { cmd := [], rx := [], turns := [] }
  fnValue := none

end Sys2Proof.Machine
end

