-- ==== Sys2Proof/Machine/Operands.lean ====
section
/-! DEFINITION. Machine/Operands.lean: the constants of the frame (spec/00_scope.md R5), the arithmetic of the Frame Model (spec/40_frame_model.md R57, R58), and every form in which a field is read out of nine bytes (spec/20_memory.md R28, R31). -/

namespace Sys2Proof.Machine

/-- Required value of offset 0 (R5, R41). -/
abbrev HDR0 : Byte := 0x59

/-- Required value of offset 1 (R5, R41). -/
abbrev HDR1 : Byte := 0x59

/-- `distance` stands at offsets 2 and 3 (R5, R33). -/
abbrev OFF_DIST : Fin 8 := 2

/-- `strength` stands at offsets 4 and 5 (R5, R33). -/
abbrev OFF_STR : Fin 8 := 4

/-- `integration_time` stands at offset 6 (R5, R33). -/
abbrev OFF_ITIME : Fin 9 := 6

/-- The reserved byte stands at offset 7 (R5, R33). -/
abbrev OFF_RSVD : Fin 9 := 7

/-- The checksum byte stands at offset 8 (R5, R33). -/
abbrev OFF_CSUM : Fin 9 := 8

/-- `le16(lo, hi) = lo + 256 * hi`: the byte at the lower offset is the less significant (R28,
R58). -/
def le16 (lo hi : Byte) : Half := BitVec.ofNat 16 (lo.toNat + 256 * hi.toNat)

/-- The byte of a 16-bit field that stands at the lower offset, `v mod 256` (R58). -/
def lowByte (v : Half) : Byte := BitVec.ofNat 8 (v.toNat % 256)

/-- The byte of a 16-bit field that stands at the higher offset, `v / 256` (R58). -/
def highByte (v : Half) : Byte := BitVec.ofNat 8 (v.toNat / 256)

/-- `MemRead(off, 1)` (R7's table of primitives, R31). -/
def read8 (w : Window) (off : Fin 9) : Byte := w[off]

/-- `MemRead(off, 2)`, little-endian (R7's table of primitives, R28, R31). -/
def read16 (w : Window) (off : Fin 8) : Half :=
  le16 (read8 w ⟨off.val, by omega⟩) (read8 w ⟨off.val + 1, by omega⟩)

/-- `sum8`: the sum of offsets 0 to 7, wrapping modulo 256; offset 8 is not summed (R55, R57, C2). -/
def sum8 (w : Window) : Byte :=
  w[0] + w[1] + w[2] + w[3] + w[4] + w[5] + w[6] + w[7]

/-- The nine bytes of the 72-bit word `F`: `Bk = F[8k+7:8k]` (R7, R40). -/
def windowOfWord (f : FrameWord) : Window :=
  #v[f.extractLsb' 0 8, f.extractLsb' 8 8, f.extractLsb' 16 8, f.extractLsb' 24 8, f.extractLsb' 32 8,
     f.extractLsb' 40 8, f.extractLsb' 48 8, f.extractLsb' 56 8, f.extractLsb' 64 8]

/-- The 72-bit word of nine bytes: `F = {B8, ..., B0}`, byte `k` of weight `256 ^ k` (R7, R40). -/
def wordOfWindow (w : Window) : FrameWord :=
  BitVec.ofNat 72 (w[0].toNat + 2 ^ 8 * w[1].toNat + 2 ^ 16 * w[2].toNat + 2 ^ 24 * w[3].toNat +
    2 ^ 32 * w[4].toNat + 2 ^ 40 * w[5].toNat + 2 ^ 48 * w[6].toNat + 2 ^ 56 * w[7].toNat + 2 ^ 64 * w[8].toNat)

/-- The nine bytes of a wire frame with the given fields, header first (R33, R40). -/
def frameBytes (distance strength : Half) (integrationTime reserved checksum : Byte) : Window :=
  #v[HDR0, HDR1, lowByte distance, highByte distance, lowByte strength, highByte strength,
     integrationTime, reserved, checksum]

end Sys2Proof.Machine
end

