-- ==== Sys2Proof/Machine/Flags.lean ====
section
/-! DEFINITION. Machine/Flags.lean: the condition values `hdr_ok` and `csum_ok` (spec/10_state.md R17: combinational, not stored), the composite of the Frame Model (spec/40_frame_model.md R60), and the derived outputs `busy`, `done`, `result` with the RES view (R18, R51). -/

namespace Sys2Proof.Machine

/-- `CHKHDR` on nine bytes: offset 0 is `0x59` and offset 1 is `0x59` (R54). -/
def headerOk (w : Window) : Bool := w[0] == HDR0 && w[1] == HDR1

/-- `CHKSUM` on nine bytes: `sum8` equals offset 8 (R55). -/
def checksumOk (w : Window) : Bool := sum8 w == read8 w OFF_CSUM

/-- The field extraction of `PARSE` (R56, R42, R43). Total as arithmetic; the rule's precondition
stands with its users (`PARSE` itself, `CSUMSTEP`). -/
def parseFields (w : Window) : Frame where
  distance        := read16 w OFF_DIST
  strength        := read16 w OFF_STR
  integrationTime := read8 w OFF_ITIME

/-- The class of a window, tested in the order of R46. -/
def classify (w : Window) : WindowClass :=
  if !headerOk w then .badHdr else if !checksumOk w then .badSum else .data

section
variable {TErr : Type}

/-- `decode9`: header before checksum before extraction (R60). It never yields `ReadError`. -/
def decode9 (w : Window) : CallResult TErr :=
  if !headerOk w then .err .invalidStartFrame
  else if !checksumOk w then .err .invalidChecksum
  else .ok (parseFields w)

/-- `hdr_ok = CHKHDR(buf)` (R17). -/
def Block.hdrOk (b : Block TErr) : Bool := headerOk b.buf

/-- `csum_ok = CHKSUM(buf)` (R17). -/
def Block.csumOk (b : Block TErr) : Bool := checksumOk b.buf

/-- The codes of the phases (R13, D9). -/
def Phase.code : Phase → BitVec 3
  | .idle          => 0
  | .awaitingBytes => 1
  | .headerCheck   => 2
  | .checksumCheck => 3
  | .parsed        => 4
  | .failed        => 5

/-- The phase with a code; 6 and 7 are no phase (R13). -/
def Phase.ofCode (c : BitVec 3) : Option Phase :=
  match c.toNat with
  | 0 => some .idle
  | 1 => some .awaitingBytes
  | 2 => some .headerCheck
  | 3 => some .checksumCheck
  | 4 => some .parsed
  | 5 => some .failed
  | _ => none

/-- The codes of the error kinds (R15, R80, D10). -/
def ErrKind.code : ErrKind → BitVec 2
  | .none              => 0
  | .invalidStartFrame => 1
  | .invalidChecksum   => 2
  | .readError         => 3

/-- The value `err` takes for a `FrameError` (R76, R83). -/
def errKind : FrameError TErr → ErrKind
  | .invalidStartFrame => .invalidStartFrame
  | .invalidChecksum   => .invalidChecksum
  | .readError _       => .readError

/-- `busy` (R18). -/
def Block.busy (b : Block TErr) : Bool :=
  match b.ph with
  | .awaitingBytes | .headerCheck | .checksumCheck => true
  | .idle | .parsed | .failed => false

/-- `done` (R18). -/
def Block.done (b : Block TErr) : Bool :=
  match b.ph with
  | .parsed | .failed => true
  | .idle | .awaitingBytes | .headerCheck | .checksumCheck => false

/-- `result`, absent when not `done` (R18): a Frame only in `PARSED`, an error only in `FAILED`.
`FAILED` with `err = NONE`, which no run reaches (R20 (f)), has no result (DESIGN CHOICE, log entry
13). -/
def Block.result (b : Block TErr) : Option (CallResult TErr) :=
  match b.ph with
  | .parsed => some (.ok { distance := b.dist, strength := b.str, integrationTime := b.itime })
  | .failed =>
    match b.err with
    | .none              => none
    | .invalidStartFrame => some (.err .invalidStartFrame)
    | .invalidChecksum   => some (.err .invalidChecksum)
    | .readError         => some (.err (.readError b.terr))
  | .idle | .awaitingBytes | .headerCheck | .checksumCheck => none

end

/-- The RES view (R51): the fields of the record the caller reads, `ph` and `err` by their codes.
`buf` and `cnt` are not in it. -/
structure ResView where
  ph    : BitVec 3
  err   : BitVec 2
  dist  : Half
  str   : Half
  itime : Byte
  terr  : Config.ErrBits
  deriving DecidableEq, Repr

/-- The RES view of the block: equal at all times to the registers (R51), and reading it changes
nothing (R32): it is a function of the state and no step. -/
def Block.res (b : Block Config.ErrBits) : ResView where
  ph    := b.ph.code
  err   := b.err.code
  dist  := b.dist
  str   := b.str
  itime := b.itime
  terr  := b.terr

/-- The RES view as one word `{ph[2:0], err[1:0], dist[15:0], str[15:0], itime[7:0], terr[EW-1:0]}`,
the first field the most significant (R51, R7; DEDUCED, log entry 14). -/
def ResView.pack (r : ResView) : BitVec (3 + 2 + 16 + 16 + 8 + Config.EW) :=
  r.ph ++ r.err ++ r.dist ++ r.str ++ r.itime ++ r.terr

end Sys2Proof.Machine
end

