-- ==== Sys2Proof/WellFormed.lean ====
section
/-! DEFINITION. WellFormed.lean: which terms of the instruction type the spec's encodings admit. One check: the checksum byte of a wire frame (spec/30_encoding.md R45, R46; the "constraint" of the table's row DATA). Every other operand is admitted at every value of its type (R42, R43, R44, R47, R64, R16). -/

namespace Sys2Proof

/-- A `DATA` frame carries the sum of its first eight bytes (R45, R46 (3)); every other instruction
is well formed as it stands. -/
def Instr.wellFormed : Instr → Bool
  | .data d s t r c => Machine.checksumOk (Machine.frameBytes d s t r c)
  | .chkhdr => true
  | .chksum => true
  | .parse => true
  | .decodeSp => true
  | .decode => true
  | .cancel => true
  | .rxbyte _ => true
  | .rxfail _ => true
  | .hdrstep => true
  | .csumstep => true
  | .reset => true

end Sys2Proof
end

