-- ==== Sys2Proof/Decode.lean ====
section
/-! DEFINITION. Decode.lean: the decoder, total on every word of every channel and rejecting by name, the encoder written from the same encodings (spec/30_encoding.md R40, R49, R50; spec/opcode_table.json), and the reading of the table's numbered words. -/

namespace Sys2Proof

open Sys2Proof.Machine

/-- Why a word is no instruction. -/
inductive DecodeError where
  /-- The window is of class `BADHDR` (R46 (1), R77). -/
  | invalidStartFrame
  /-- The window is of class `BADSUM` (R46 (2), R78). -/
  | invalidChecksum
  /-- No internal step is selected by this code of `ph` (R66, R67, R70; 6 and 7 are no phase, R13). -/
  | noInternalStep
  /-- Fewer bytes than the nine of a frame (R39). -/
  | tooShort
  deriving DecidableEq, Repr

/-- A wire frame. The header is matched first and the checksum condition evaluated after it, as R46
and the table's row `DATA` say; the operands are the fields of R40. -/
def decodeFrame (w : Window) : Except DecodeError Instr :=
  match classify w with
  | .badHdr => .error .invalidStartFrame
  | .badSum => .error .invalidChecksum
  | .data   => .ok (.data (read16 w OFF_DIST) (read16 w OFF_STR) (read8 w OFF_ITIME) (read8 w OFF_RSVD) (read8 w OFF_CSUM))

/-- A command: `cmd = 0` is `START`, `cmd = 1` is `CANCEL` (R49). `START` reads as `DECODE_SP`, of
which `DECODE` is another spelling (R53; DEDUCED, log entry 12). -/
def decodeCmd (c : BitVec 1) : Instr := if c == 0 then .decodeSp else .cancel

/-- An RX event: `rx_kind = 0` is `RXBYTE(rx_data)`, `rx_kind = 1` is `RXFAIL(rx_err)`; the payload
of the other kind is ignored (R50). -/
def decodeRx (w : RxWord) : Instr := if w.kind == 0 then .rxbyte w.data else .rxfail w.err

/-- The internal step a code of `ph` selects (R66: 2, R67: 3). -/
def decodePhase (c : BitVec 3) : Except DecodeError Instr :=
  if c == 2 then .ok .hdrstep else if c == 3 then .ok .csumstep else .error .noInternalStep

/-- The decoder. -/
def decode : ChanWord → Except DecodeError Instr
  | .frame w   => decodeFrame w
  | .cmd c     => .ok (decodeCmd c)
  | .rx w      => .ok (decodeRx w)
  | .phase c   => decodePhase c
  | .resetLine => .ok .reset

/-- The decoder on a string of wire bytes: the first nine are one frame (R48), and what follows them
is left over. -/
def decodeBytes : List Byte → Except DecodeError (Instr × List Byte)
  | b0 :: b1 :: b2 :: b3 :: b4 :: b5 :: b6 :: b7 :: b8 :: rest =>
    match decodeFrame #v[b0, b1, b2, b3, b4, b5, b6, b7, b8] with
    | .ok i    => .ok (i, rest)
    | .error e => .error e
  | _ => .error .tooShort

/-- The encoder: the word that selects an instruction, none for the three pure functions, which the
table gives "no encoding". The ignored payload of an RX word is encoded as zero (DESIGN CHOICE, log entry 15). -/
def encode : Instr → Option ChanWord
  | .data d s t r c => some (.frame (frameBytes d s t r c))
  | .chkhdr   => none
  | .chksum   => none
  | .parse    => none
  | .decodeSp => some (.cmd 0)
  | .decode   => some (.cmd 0)
  | .cancel   => some (.cmd 1)
  | .rxbyte b => some (.rx { kind := 0, data := b, err := 0 })
  | .rxfail e => some (.rx { kind := 1, data := 0, err := e })
  | .hdrstep  => some (.phase 2)
  | .csumstep => some (.phase 3)
  | .reset    => some .resetLine

/-- The instruction a pseudo-instruction expands to: `DECODE` is `DECODE_SP` (R53; the table's
"expands_to"), every other instruction is itself. -/
def expand : Instr → Instr
  | .decode => .decodeSp
  | .data d s t r c => .data d s t r c
  | .chkhdr => .chkhdr
  | .chksum => .chksum
  | .parse => .parse
  | .decodeSp => .decodeSp
  | .cancel => .cancel
  | .rxbyte b => .rxbyte b
  | .rxfail e => .rxfail e
  | .hdrstep => .hdrstep
  | .csumstep => .csumstep
  | .reset => .reset

/-- The RX word whose bits are `{rx_err, rx_data, rx_kind}`, `rx_kind` at bit 0 as the table's match
and mask place it (DESIGN CHOICE, log entry 6). -/
def rxWordOfBits (w : Nat) : RxWord where
  kind := BitVec.ofNat 1 w
  data := BitVec.ofNat 8 (w / 2)
  err  := BitVec.ofNat Config.EW (w / 512)

/-- The channel word of a word numbered as spec/opcode_table.json numbers it (DESIGN CHOICE, log entry 6). One byte:
the codes 2 and 3 of `ph` (mask `0x7`) are the more specific match and come first, the bit `cmd`
(mask `0x1`) after them; more than one byte is an RX word of nine bits where its bits above
bit 8 are zero and a frame `F` otherwise. A row without bits is on no channel. -/
def tableWord (nbits w : Nat) : Option ChanWord :=
  if nbits == 0 then none
  else if nbits ≤ 8 then
    if w % 8 == 2 || w % 8 == 3 then some (.phase (BitVec.ofNat 3 w)) else some (.cmd (BitVec.ofNat 1 w))
  else if nbits ≤ 16 && w < 512 then some (.rx (rxWordOfBits w))
  else some (.frame (windowOfWord (BitVec.ofNat 72 w)))

/-- What the decoder reads from a word numbered as the table numbers it. -/
def decodeTableWord (nbits w : Nat) : Option Instr :=
  match tableWord nbits w with
  | none   => none
  | some c =>
    match decode c with
    | .ok i    => some i
    | .error _ => none

end Sys2Proof
end

