-- ==== Sys2Proof/Machine/Ops.lean ====
section
/-! DEFINITION. Machine/Ops.lean: the shared operations over the block's registers: entering the failed state (spec/60_exceptions.md R83) and leaving it (R85), storing a byte, judging the window, accepting an event or leaving it with its offerer (spec/41_frame_reader.md R70), and how the environment's offers reach the block. -/

namespace Sys2Proof.Machine

/-! ### The block, whatever the type of the transport's errors (R6) -/

section
variable {TErr : Type}

/-- `raise K(info)`, the entry into the failed state: `ph <- FAILED`, `err <- code(K)`, for
`ReadError(e)` also `terr <- e`, and nothing else (R83). -/
def Block.fail (b : Block TErr) (e : FrameError TErr) : Block TErr :=
  { b with
    ph   := .failed
    err  := errKind e
    terr := match e with
      | .readError v => v
      | .invalidStartFrame | .invalidChecksum => b.terr }

/-- The effect of `START` (R62), which is also what leaves the failed state (R85): `ph <-
AWAITING_BYTES`, `cnt <- 0`, `err <- NONE`; the other registers keep their bits. -/
def Block.startCall (b : Block TErr) : Block TErr := { b with ph := .awaitingBytes, cnt := 0, err := .none }

/-- The effect of `CANCEL` (R68): `ph <- IDLE`; the other registers keep their bits. -/
def Block.abandon (b : Block TErr) : Block TErr := { b with ph := .idle }

/-- The effect of `RESET` (R90): `ph <- IDLE`, `cnt <- 0`, `err <- NONE`; the other registers are not
written. -/
def Block.resetSequencer (b : Block TErr) : Block TErr := { b with ph := .idle, cnt := 0, err := .none }

/-- `MemWrite(off, 1, v)` (R31): one byte; offset 9 and above do not exist (R25). -/
def Block.write8 (b : Block TErr) (off : Nat) (v : Byte) : Except Fault (Block TErr) :=
  if h : off < 9 then .ok { b with buf := b.buf.set off v h } else .error .bufOffset

/-- `cnt <- cnt + 1`, `0..8 -> 1..9`; it stops at 9 (R12, R59). -/
def Block.bumpCnt (b : Block TErr) : Block TErr :=
  if h : b.cnt.val < 9 then { b with cnt := ⟨b.cnt.val + 1, by omega⟩ } else b

/-- The effect of `RXBYTE(v)` (R64): the byte goes to `buf[cnt]`, the ninth moves the phase on, and
`cnt` counts it. -/
def Block.receive (b : Block TErr) (v : Byte) : Except Fault (Block TErr) :=
  match b.write8 b.cnt.val v with
  | .error f => .error f
  | .ok b' => .ok (if b.cnt.val == 8 then { b' with ph := .headerCheck } else b').bumpCnt

/-- The effect of `HDRSTEP` (R66). -/
def Block.judgeHeader (b : Block TErr) : Block TErr :=
  if b.hdrOk then { b with ph := .checksumCheck } else b.fail .invalidStartFrame

/-- `DIST`, `STR`, `ITIME` take the Frame `f`, all three together (R14, R67). -/
def Block.loadFrame (b : Block TErr) (f : Frame) : Block TErr :=
  { b with dist := f.distance, str := f.strength, itime := f.integrationTime }

/-- The effect of `CSUMSTEP` (R67): extraction only under `csum_ok`. -/
def Block.judgeChecksum (b : Block TErr) : Block TErr :=
  if b.csumOk then { b.loadFrame (parseFields b.buf) with ph := .parsed } else b.fail .invalidChecksum

end

/-! ### Acceptance -/

/-- The phases in which `START` is accepted (R62, R70). -/
def Phase.acceptsStart : Phase → Bool
  | .idle | .parsed | .failed => true
  | .awaitingBytes | .headerCheck | .checksumCheck => false

/-- The phase in which `CANCEL` and the RX events are accepted (R64, R65, R68, R70). -/
def Phase.isAwaiting : Phase → Bool
  | .awaitingBytes => true
  | .idle | .headerCheck | .checksumCheck | .parsed | .failed => false

/-- The acceptance table of R70. The pure functions are no events: they are evaluated in every phase
(R61). A wire frame is nine `RXBYTE`s. -/
def accepts (i : Instr) (p : Phase) : Bool :=
  match i with
  | .data _ _ _ _ _ => p.isAwaiting
  | .chkhdr => true
  | .chksum => true
  | .parse => true
  | .decodeSp => p.acceptsStart
  | .decode => p.acceptsStart
  | .cancel => p.isAwaiting
  | .rxbyte _ => p.isAwaiting
  | .rxfail _ => p.isAwaiting
  | .hdrstep => p == .headerCheck
  | .csumstep => p == .checksumCheck
  | .reset => true

/-- An event whose guard is `accepted` (R70): the effect where it holds; where it does not, no step:
the state does not change (that this is a next state is a DESIGN CHOICE, log entry 4). -/
def State.onAccept (s : State) (accepted : Bool) (effect : Block Config.ErrBits → Block Config.ErrBits) :
    Host.Outcome State Fault Refusal :=
  .next (if accepted then { s with block := effect s.block } else s)

/-- As `onAccept`, for an effect that writes the buffer and can meet an offset that does not exist. -/
def State.onAcceptWrite (s : State) (accepted : Bool) (effect : Block Config.ErrBits → Except Fault (Block Config.ErrBits)) :
    Host.Outcome State Fault Refusal :=
  if accepted then
    match effect s.block with
    | .ok b    => .next { s with block := b }
    | .error f => .fault f
  else .next s

/-- The evaluator of a pure function receives its value; the block is not touched (R61). -/
def State.gives (s : State) (v : FnValue) : State := { s with fnValue := some v }

/-! ### A whole wire frame -/

section
variable {TErr : Type}

/-- Bytes handed over one after another: each is stored while the block awaits bytes; the rest stay
with the byte source (R64 (b), R64 (c), R34). -/
def Block.receiveAll (b : Block TErr) : List Byte → Except Fault (Block TErr)
  | [] => .ok b
  | v :: vs =>
    if b.ph.isAwaiting then
      match b.receive v with
      | .ok b'   => b'.receiveAll vs
      | .error f => .error f
    else .ok b

/-- The internal steps run to the terminal phase: `HDRSTEP`, then `CSUMSTEP` if the header passed
(R35, R70). -/
def Block.settle (b : Block TErr) : Block TErr :=
  let b' := if b.ph == .headerCheck then b.judgeHeader else b
  if b'.ph == .checksumCheck then b'.judgeChecksum else b'

/-- What the steps of a whole wire window come to (R71 (a)): its bytes in offset order, then the
internal steps. No step of the closed system does it at once (R9; log entry 8). -/
def Block.receiveWindow (b : Block TErr) (w : Window) : Except Fault (Block TErr) :=
  match b.receiveAll w.toList with
  | .ok b'   => .ok b'.settle
  | .error f => .error f

end

/-! ### Offers -/

/-- The RX words of a window's bytes, in offset order (R27, R50). -/
def rxOfWindow (w : Window) : List RxWord := w.toList.map fun b => { kind := 0, data := b, err := 0 }

/-- The turns that hand over a wire frame and judge it: one event or internal step each (R9, R71 (a)). -/
def frameTurns : List Turn := List.replicate 9 .source ++ [.block, .block]

/-- What is offered to the block in this step: by the agent whose turn it is, or, when the turns are
used up, by nobody but the block itself. A wire frame is never offered whole: the byte source offers
its bytes one by one (R9, R34) (DESIGN CHOICE, log entries 1 and 10). -/
def State.offered (s : State) : Option ChanWord :=
  match s.env.turns with
  | [] => some (.phase s.block.ph.code)
  | .block :: _ => some (.phase s.block.ph.code)
  | .caller :: _ => s.env.cmd.head?.map .cmd
  | .source :: _ => s.env.rx.head?.map .rx
  | .reset :: _ => some .resetLine

/-- The turn is over. -/
def State.passTurn (s : State) : State := { s with env := { s.env with turns := s.env.turns.tail } }

/-- How many words the offerer's channel loses when `w` is offered (R32, R70): an accepted event is
consumed, one that is not accepted stays. -/
def Block.takes (b : Block Config.ErrBits) (w : ChanWord) : Nat :=
  match w with
  | .cmd c     => if accepts (decodeCmd c) b.ph then 1 else 0
  | .rx _      => if b.ph.isAwaiting then 1 else 0
  | .frame _   => 0
  | .phase _   => 0
  | .resetLine => 0

/-- The state in which the offered word's instruction runs: the turn over, and what the block accepts
taken from its channel (R32). -/
def State.take (s : State) (w : ChanWord) : State :=
  match w with
  | .cmd _     => { s.passTurn with env := { s.passTurn.env with cmd := s.env.cmd.drop (s.block.takes w) } }
  | .rx _      => { s.passTurn with env := { s.passTurn.env with rx := s.env.rx.drop (s.block.takes w) } }
  | .frame _   => s.passTurn
  | .phase _   => s.passTurn
  | .resetLine => s.passTurn

/-- The state with a channel word standing where the next step looks for one: at the head of its
channel, its agent's turn first; for an internal step, the phase that selects it; for a wire frame,
its nine bytes at the head of RX, with the nine turns that hand them over and the two of the internal
steps first (R71 (a)). -/
def State.place (s : State) (w : ChanWord) : State :=
  match w with
  | .cmd c     => { s with env := { s.env with cmd := c :: s.env.cmd, turns := .caller :: s.env.turns } }
  | .rx v      => { s with env := { s.env with rx := v :: s.env.rx, turns := .source :: s.env.turns } }
  | .frame v   => { s with env := { s.env with rx := rxOfWindow v ++ s.env.rx, turns := frameTurns ++ s.env.turns } }
  | .phase c   =>
    match Phase.ofCode c with
    | some p => { s with block := { s.block with ph := p }, env := { s.env with turns := .block :: s.env.turns } }
    | none   => s
  | .resetLine => { s with env := { s.env with turns := .reset :: s.env.turns } }

end Sys2Proof.Machine
end

