-- ==== Sys2Proof/Machine/FrameModel.lean ====
section
/-! DEFINITION. Machine/FrameModel.lean: the meanings of the Frame Model's rows (spec/40_frame_model.md): `CHKHDR`, `CHKSUM`, `PARSE`, pure functions of `buf` that write no register (R61), and `DATA`, the whole wire frame (R60, R71). -/

namespace Sys2Proof.Machine

/-- `CHKHDR` (R54): its value is `hdr_ok` (R17). -/
def execChkhdr (s : State) : Host.Outcome State Fault Refusal := .next (s.gives (.hdrOk s.block.hdrOk))

/-- `CHKSUM` (R55): its value is `csum_ok` (R17). -/
def execChksum (s : State) : Host.Outcome State Fault Refusal := .next (s.gives (.csumOk s.block.csumOk))

/-- `PARSE` (R56): the Frame, on a buffer that has passed both checks; otherwise the source calls
its behaviour "unspecified/undefined" and U1 says `refuse`. -/
def execParse (s : State) : Host.Outcome State Fault Refusal :=
  if s.block.hdrOk && s.block.csumOk then .next (s.gives (.frame (parseFields s.block.buf)))
  else .refused .parseUnvalidated

/-- `DATA` (R60, R71 (a)): what the steps of a whole wire frame come to: its nine bytes in offset order,
then the internal steps. Its bytes are accepted only in `AWAITING_BYTES` (R70). A run takes these
steps one by one (R9): no step of the closed system is a `DATA` (DESIGN CHOICE, log entry 8). -/
def execData (distance strength : Half) (integrationTime reserved checksum : Byte) (s : State) :
    Host.Outcome State Fault Refusal :=
  s.onAcceptWrite s.block.ph.isAwaiting fun b =>
    b.receiveWindow (frameBytes distance strength integrationTime reserved checksum)

end Sys2Proof.Machine
end

