-- ==== Sys2Proof/Machine/FrameReader.lean ====
section
/-! DEFINITION. Machine/FrameReader.lean: the meanings of the step rules of the Frame Reader (spec/41_frame_reader.md R62 to R68): each an effect under the guard of the acceptance table (R70). -/

namespace Sys2Proof.Machine

/-- `DECODE_SP` (R62): the CMD event `START`. -/
def execDecodeSp (s : State) : Host.Outcome State Fault Refusal :=
  s.onAccept s.block.ph.acceptsStart Block.startCall

/-- `DECODE` (R63): the same CMD event `START`, "with nothing added and nothing removed". -/
def execDecode (s : State) : Host.Outcome State Fault Refusal :=
  s.onAccept s.block.ph.acceptsStart Block.startCall

/-- `CANCEL` (R68). -/
def execCancel (s : State) : Host.Outcome State Fault Refusal :=
  s.onAccept s.block.ph.isAwaiting Block.abandon

/-- `RXBYTE(v)` (R64). -/
def execRxbyte (v : Byte) (s : State) : Host.Outcome State Fault Refusal :=
  s.onAcceptWrite s.block.ph.isAwaiting fun b => b.receive v

/-- `RXFAIL(e)` (R65): raises `ReadError(e)`, always. -/
def execRxfail (e : Config.ErrBits) (s : State) : Host.Outcome State Fault Refusal :=
  s.onAccept s.block.ph.isAwaiting fun b => b.fail (.readError e)

/-- `HDRSTEP` (R66). -/
def execHdrstep (s : State) : Host.Outcome State Fault Refusal :=
  s.onAccept (s.block.ph == .headerCheck) Block.judgeHeader

/-- `CSUMSTEP` (R67). -/
def execCsumstep (s : State) : Host.Outcome State Fault Refusal :=
  s.onAccept (s.block.ph == .checksumCheck) Block.judgeChecksum

end Sys2Proof.Machine
end

