-- ==== Sys2Proof/Machine/ResetInput.lean ====
section
/-! DEFINITION. Machine/ResetInput.lean: the meaning of `RESET` (spec/70_reset_and_hazards.md R90, R91). -/

namespace Sys2Proof.Machine

/-- `RESET` (R90): accepted in every phase; the byte source is not touched (R91). -/
def execReset (s : State) : Host.Outcome State Fault Refusal :=
  .next { s with block := s.block.resetSequencer }

end Sys2Proof.Machine
end

