-- ==== Sys2Proof/Machine/Dispatch.lean ====
section
/-! DEFINITION. Machine/Dispatch.lean: one arm per constructor of the instruction type, each one call of its meaning. -/

namespace Sys2Proof.Machine

def exec (i : Instr) (s : State) : Host.Outcome State Fault Refusal :=
  match i with
  | .data d st t r c => Sys2Proof.Machine.execData d st t r c s
  | .chkhdr => Sys2Proof.Machine.execChkhdr s
  | .chksum => Sys2Proof.Machine.execChksum s
  | .parse => Sys2Proof.Machine.execParse s
  | .decodeSp => Sys2Proof.Machine.execDecodeSp s
  | .decode => Sys2Proof.Machine.execDecode s
  | .cancel => Sys2Proof.Machine.execCancel s
  | .rxbyte b => Sys2Proof.Machine.execRxbyte b s
  | .rxfail e => Sys2Proof.Machine.execRxfail e s
  | .hdrstep => Sys2Proof.Machine.execHdrstep s
  | .csumstep => Sys2Proof.Machine.execCsumstep s
  | .reset => Sys2Proof.Machine.execReset s

end Sys2Proof.Machine
end

