-- ==== Sys2Proof/Machine/Step.lean ====
section
/-! DEFINITION. Machine/Step.lean: one step of the closed system (block and environment): the offered word, decoded and run (spec/00_scope.md R9, spec/41_frame_reader.md R70). -/

namespace Sys2Proof.Machine

/-- One step: exactly one offer is looked at (R9, R70). Where the agent whose turn it is offers
nothing, or the phase selects no internal step, the block waits and the turn passes (R70, R75, R97);
an offered word runs its instruction. -/
def step (s : State) : Host.Outcome State Fault Refusal :=
  match s.offered with
  | none   => .next s.passTurn
  | some w =>
    match decode w with
    | .ok i    => exec i (s.take w)
    | .error _ => .next (s.take w)

/-- The state whose next step meets the word numbered as the opcode table numbers it (DESIGN
CHOICE, log entries 6 and 7); a word on no channel leaves the state as it is. -/
def State.withFetchWord (s : State) (nbits w : Nat) : State :=
  match tableWord nbits w with
  | some c => s.place c
  | none   => s

end Sys2Proof.Machine
end

