-- ==== Sys2Proof/Safety.lean ====
section
/-! DEFINITION. Safety.lean: what claims about runs are stated in: the invariant of spec/10_state.md R20, the bytes a call has read, a block read through a coding of the transport's errors (R6), when two blocks are in the same call (R21, R74), a run of instructions, and a run that does not stop. -/

namespace Sys2Proof.Machine

/-- The exact sum of the eight bytes at offsets 0 to 7, without wrap (R55 (e)). -/
def exactSum (w : Window) : Nat :=
  w[0].toNat + w[1].toNat + w[2].toNat + w[3].toNat + w[4].toNat + w[5].toNat + w[6].toNat + w[7].toNat

section
variable {TErr : Type}

/-- The invariant of R20 over the registers. What it says of the bytes accepted so far is
`Block.HasRead`. -/
structure Block.Inv (b : Block TErr) : Prop where
  /-- (a) -/
  idle : b.ph = .idle → b.err = .none
  /-- (b) -/
  awaiting : b.ph = .awaitingBytes → b.cnt.val ≤ 8 ∧ b.err = .none
  /-- (c) -/
  checking : b.ph = .headerCheck ∨ b.ph = .checksumCheck → b.cnt.val = 9 ∧ b.err = .none
  /-- (d) -/
  headerJudged : b.ph = .checksumCheck → b.buf[0] = 0x59 ∧ b.buf[1] = 0x59
  /-- (e), the sequencer and the checks -/
  parsed : b.ph = .parsed → b.cnt.val = 9 ∧ b.err = .none ∧ b.buf[0] = 0x59 ∧ b.buf[1] = 0x59 ∧
    exactSum b.buf % 256 = b.buf[8].toNat
  /-- (e), the Frame -/
  frame : b.ph = .parsed → b.dist.toNat = b.buf[2].toNat + 256 * b.buf[3].toNat ∧
    b.str.toNat = b.buf[4].toNat + 256 * b.buf[5].toNat ∧ b.itime = b.buf[6]
  /-- (f) -/
  failed : b.ph = .failed → b.err ≠ .none
  /-- (f), `INVALID_START_FRAME` -/
  badHeader : b.ph = .failed → b.err = .invalidStartFrame →
    b.cnt.val = 9 ∧ (b.buf[0] ≠ 0x59 ∨ b.buf[1] ≠ 0x59)
  /-- (f), `INVALID_CHECKSUM` -/
  badChecksum : b.ph = .failed → b.err = .invalidChecksum →
    b.cnt.val = 9 ∧ b.buf[0] = 0x59 ∧ b.buf[1] = 0x59 ∧ exactSum b.buf % 256 ≠ b.buf[8].toNat
  /-- (f), `READ_ERROR` -/
  readFailed : b.ph = .failed → b.err = .readError → b.cnt.val ≤ 8

/-- `bs` are the bytes accepted in this call, in order (R20 (b), (c)): `cnt` of them, each at its
offset. -/
def Block.HasRead (b : Block TErr) (bs : List Byte) : Prop :=
  b.cnt.val = bs.length ∧ ∀ (k : Nat) (h : k < bs.length) (h9 : k < 9), b.buf[k] = bs[k]

/-- Two blocks that differ at most in bits an earlier call wrote (R21): the sequencer agrees, the
bytes this call has stored agree, and what the RES view means now agrees. -/
structure Block.SameCall (a b : Block TErr) : Prop where
  ph     : a.ph = b.ph
  cnt    : a.cnt = b.cnt
  err    : a.err = b.err
  stored : ∀ (k : Nat) (h9 : k < 9), k < a.cnt.val → a.buf[k] = b.buf[k]
  frame  : a.ph = .parsed → a.dist = b.dist ∧ a.str = b.str ∧ a.itime = b.itime
  cause  : a.ph = .failed → a.err = .readError → a.terr = b.terr

end

section
variable {α β : Type}

/-- The same error, its transport error carried over by `f`. -/
def mapError (f : α → β) : FrameError α → FrameError β
  | .invalidStartFrame => .invalidStartFrame
  | .invalidChecksum => .invalidChecksum
  | .readError e => .readError (f e)

/-- The same result, its transport error carried over by `f`. -/
def mapResult (f : α → β) : CallResult α → CallResult β
  | .ok v => .ok v
  | .err e => .err (mapError f e)

/-- The same block, the contents of `terr` carried over by `f`: for an `f` that codes the errors of a
transport in `EW` bits, the block as the hardware holds it (R6, R16). -/
def Block.map (f : α → β) (b : Block α) : Block β where
  buf   := b.buf
  cnt   := b.cnt
  ph    := b.ph
  dist  := b.dist
  str   := b.str
  itime := b.itime
  err   := b.err
  terr  := f b.terr

end

/-- RX words that hand over the bytes `bs`, one each, whatever stands in the payload of the other kind,
which is ignored (R50). -/
def handOver (xs : List RxWord) (bs : List Byte) : Prop :=
  xs.map RxWord.data = bs ∧ ∀ x ∈ xs, x.kind = 0

/-- Instructions run one after another, stopping at the first fault or refusal. -/
def runInstrs : List Instr → State → Host.Outcome State Fault Refusal
  | [], s => .next s
  | i :: is, s =>
    match exec i s with
    | .next s' => runInstrs is s'
    | .fault f => .fault f
    | .refused r => .refused r

/-- `i` has no step in `s`: if a next state is answered at all, it is `s` itself (R70, "the state does
not change, nothing is recorded"). -/
def NoStep (i : Instr) (s : State) : Prop := ∀ t, exec i s = .next t → t = s

/-- The CMD events (R49). -/
def isCmdEvent : Instr → Bool
  | .decodeSp | .decode | .cancel => true
  | .data _ _ _ _ _ | .chkhdr | .chksum | .parse | .rxbyte _ | .rxfail _ | .hdrstep | .csumstep | .reset => false

/-- The RX events (R50). -/
def isRxEvent : Instr → Bool
  | .rxbyte _ | .rxfail _ => true
  | .data _ _ _ _ _ | .chkhdr | .chksum | .parse | .decodeSp | .decode | .cancel | .hdrstep | .csumstep
  | .reset => false

/-- The events of the CMD and RX channels (R49, R50). -/
def isChannelEvent (i : Instr) : Bool := isCmdEvent i || isRxEvent i

/-- The internal steps and the reset, which take nothing from a channel (R9). -/
def takesNoEvent : Instr → Bool
  | .hdrstep | .csumstep | .reset => true
  | .data _ _ _ _ _ | .chkhdr | .chksum | .parse | .decodeSp | .decode | .cancel | .rxbyte _ | .rxfail _ => false

/-- The steps of R9: the acceptance of one event of a channel, an internal step, or `RESET`. -/
def isStep (i : Instr) : Bool := isChannelEvent i || takesNoEvent i

/-- The steps of R9, each atomic, and the pure functions: every instruction but `DATA`, which is a
whole window of steps (R71 (a)). -/
def isAtomic : Instr → Bool
  | .data _ _ _ _ _ => false
  | .chkhdr | .chksum | .parse | .decodeSp | .decode | .cancel | .rxbyte _ | .rxfail _
  | .hdrstep | .csumstep | .reset => true

/-- `k` steps of the closed system end in a next state: the run meets no fault and no refusal. -/
def SafeFor (k : Nat) (s : State) : Prop := ∃ t, Sys2Proof.core.run k s = .next t

end Sys2Proof.Machine
end

