-- ==== Sys2Proof/Certificates/Slice0/Obligations.lean ====
section
/-! DEFINITION. Certificates/Slice0/Obligations.lean: the statements about the model that the provers settle. Each docstring names the rule of spec/ it formalises, or says that it rests on a choice of the model. -/

open Sys2Proof
open Sys2Proof.Machine

/-! ### Reset and the RES view -/

/-- R24, the part it gives values for: after reset `ph = IDLE` (code 0), `cnt = 0`, `err = NONE`
(code 0), `busy = 0`, `done = 0`, `result` absent. -/
def Obligations.ResetStateIsIdle : Prop :=
  State.reset.block.ph = .idle ∧ State.reset.block.res.ph = 0 ∧ State.reset.block.cnt.val = 0 ∧
  State.reset.block.err = .none ∧ State.reset.block.res.err = 0 ∧
  State.reset.block.busy = false ∧ State.reset.block.done = false ∧ State.reset.block.result = none

/-- R18: `busy`, `done` and `result` as functions of the state; `result` is absent when not `done`. -/
def Obligations.ResultReadsByPhase : Prop :=
  ∀ (TErr : Type) (b : Block TErr),
    (b.busy = true ↔ b.ph = .awaitingBytes ∨ b.ph = .headerCheck ∨ b.ph = .checksumCheck) ∧
    (b.done = true ↔ b.ph = .parsed ∨ b.ph = .failed) ∧
    (b.ph = .parsed → b.result =
      some (.ok { distance := b.dist, strength := b.str, integrationTime := b.itime })) ∧
    (b.ph = .failed → b.err = .invalidStartFrame → b.result = some (.err .invalidStartFrame)) ∧
    (b.ph = .failed → b.err = .invalidChecksum → b.result = some (.err .invalidChecksum)) ∧
    (b.ph = .failed → b.err = .readError → b.result = some (.err (.readError b.terr))) ∧
    (b.done = false → b.result = none)

/-- R13, R15, R51: the codes the RES view shows, and the places of its fields in the packed word
`{ph, err, dist, str, itime, terr}`. That the first field stands at the most significant bits is the
model's reading of R51 by R7 (DEDUCED, log entry 14). -/
def Obligations.ResViewShowsRegisters : Prop :=
  ∀ b : Block Config.ErrBits,
    b.res.ph.toNat = (match b.ph with
      | .idle => 0 | .awaitingBytes => 1 | .headerCheck => 2
      | .checksumCheck => 3 | .parsed => 4 | .failed => 5) ∧
    b.res.err.toNat = (match b.err with
      | .none => 0 | .invalidStartFrame => 1 | .invalidChecksum => 2 | .readError => 3) ∧
    b.res.pack.extractLsb' (Config.EW + 42) 3 = b.res.ph ∧
    b.res.pack.extractLsb' (Config.EW + 40) 2 = b.res.err ∧
    b.res.pack.extractLsb' (Config.EW + 24) 16 = b.dist ∧
    b.res.pack.extractLsb' (Config.EW + 8) 16 = b.str ∧
    b.res.pack.extractLsb' Config.EW 8 = b.itime ∧
    b.res.pack.extractLsb' 0 Config.EW = b.terr

/-! ### Arithmetic and the Frame Model -/

/-- R57: the 8-bit accumulator that wraps at each addition and the wide sum truncated once are the same
function, and the order of summation does not matter. -/
def Obligations.WrappingSumIsTruncatedSum : Prop :=
  ∀ w : Window, (sum8 w).toNat = exactSum w % 256 ∧
    ∀ l : List Byte, l.Perm (w.toList.take 8) → l.foldl (fun acc b => acc + b) 0 = sum8 w

/-- R58: little-endian composition, its two forms, and its inverse. -/
def Obligations.LittleEndianComposition : Prop :=
  (∀ lo hi : Byte, (le16 lo hi).toNat = lo.toNat + 256 * hi.toNat ∧
    le16 lo hi = (lo.setWidth 16 ||| (hi.setWidth 16 <<< 8)) ∧
    lowByte (le16 lo hi) = lo ∧ highByte (le16 lo hi) = hi) ∧
  (∀ v : Half, (lowByte v).toNat = v.toNat % 256 ∧ (highByte v).toNat = v.toNat / 256 ∧
    le16 (lowByte v) (highByte v) = v)

/-- R54: the header check: both bytes, all eight bits of each, and no other byte. -/
def Obligations.HeaderCheckIsOnBothBytes : Prop :=
  (∀ w : Window, headerOk w = true ↔ w[0] = 0x59 ∧ w[1] = 0x59) ∧
  (∀ w w' : Window, w[0] = w'[0] → w[1] = w'[1] → headerOk w = headerOk w')

/-- R55: the checksum check: the low eight bits of the exact sum of offsets 0 to 7 against offset 8;
the bounds of the sum; a sum of 256 needs `0x00`; all zeros pass. -/
def Obligations.ChecksumCheckWraps : Prop :=
  (∀ w : Window, checksumOk w = true ↔ exactSum w % 256 = w[8].toNat) ∧
  (∀ w : Window, exactSum w = 256 → (checksumOk w = true ↔ w[8] = 0)) ∧
  (∀ w : Window, exactSum w ≤ 2040) ∧
  (∀ w : Window, w[0] = 0x59 → w[1] = 0x59 → 178 ≤ exactSum w ∧ exactSum w ≤ 1708) ∧
  checksumOk #v[0, 0, 0, 0, 0, 0, 0, 0, 0] = true

/-- What `CHKHDR` gives, in every state, and that it changes nothing else (R54, R61). That the value is
held in `fnValue` is the model's choice (log entry 5). -/
def Obligations.ChkhdrGivesHeaderCheck : Prop :=
  ∀ s : State, ∃ v : Bool, exec .chkhdr s = .next { s with fnValue := some (.hdrOk v) } ∧
    (v = true ↔ s.block.buf[0] = 0x59 ∧ s.block.buf[1] = 0x59)

/-- What `CHKSUM` gives, in every state, and that it changes nothing else (R55, R61; log entry 5). -/
def Obligations.ChksumGivesChecksumCheck : Prop :=
  ∀ s : State, ∃ v : Bool, exec .chksum s = .next { s with fnValue := some (.csumOk v) } ∧
    (v = true ↔ exactSum s.block.buf % 256 = s.block.buf[8].toNat)

/-- What `PARSE` gives on a buffer that has passed both checks, and that it changes nothing else (R56,
R61; log entry 5). -/
def Obligations.ParseGivesFields : Prop :=
  ∀ s : State, s.block.buf[0] = 0x59 → s.block.buf[1] = 0x59 →
    exactSum s.block.buf % 256 = s.block.buf[8].toNat →
    ∃ f : Frame, exec .parse s = .next { s with fnValue := some (.frame f) } ∧
      f.distance.toNat = s.block.buf[2].toNat + 256 * s.block.buf[3].toNat ∧
      f.strength.toNat = s.block.buf[4].toNat + 256 * s.block.buf[5].toNat ∧
      f.integrationTime = s.block.buf[6]

/-- U1: `PARSE` on a buffer that has not passed both checks is refused, by its own name. -/
def Obligations.ParseUnvalidatedIsRefused : Prop :=
  ∀ s : State, (s.block.buf[0] ≠ 0x59 ∨ s.block.buf[1] ≠ 0x59 ∨
      exactSum s.block.buf % 256 ≠ s.block.buf[8].toNat) →
    exec .parse s = .refused .parseUnvalidated

/-- R61: the pure functions read `buf` and nothing else, and write nothing of the block or its
environment. That their value is held in `fnValue` is the model's choice (log entry 5). -/
def Obligations.PureFunctionsReadOnlyBuf : Prop :=
  ∀ i : Instr, i = .chkhdr ∨ i = .chksum ∨ i = .parse →
    ∀ s t : State, s.block.buf = t.block.buf →
      (∀ s', exec i s = .next s' → s'.block = s.block ∧ s'.env = s.env ∧
        ∃ t', exec i t = .next t' ∧ t'.fnValue = s'.fnValue) ∧
      (∀ r, exec i s = .refused r → exec i t = .refused r)

/-- R60: the three properties of `decode9`, that it never yields `ReadError`, and its inverse: for
every Frame `f` and byte `r` exactly one window with `B7 = r` decodes to `f`. -/
def Obligations.DecodeOfWindowByClass : Prop :=
  ∀ TErr : Type,
  (∀ w : Window, w[0] = 0x59 → w[1] = 0x59 → exactSum w % 256 = w[8].toNat →
    ∃ f : Frame, decode9 (TErr := TErr) w = .ok f ∧ f.distance.toNat = w[2].toNat + 256 * w[3].toNat ∧
      f.strength.toNat = w[4].toNat + 256 * w[5].toNat ∧ f.integrationTime = w[6]) ∧
  (∀ w : Window, w[0] ≠ 0x59 ∨ w[1] ≠ 0x59 → decode9 (TErr := TErr) w = .err .invalidStartFrame) ∧
  (∀ w : Window, w[0] = 0x59 → w[1] = 0x59 → exactSum w % 256 ≠ w[8].toNat →
    decode9 (TErr := TErr) w = .err .invalidChecksum) ∧
  (∀ (w : Window) (e : TErr), decode9 w ≠ .err (.readError e)) ∧
  (∀ (f : Frame) (r : Byte), ∃ c : Byte,
    c.toNat = (0xB2 + f.distance.toNat % 256 + f.distance.toNat / 256 + f.strength.toNat % 256 +
      f.strength.toNat / 256 + f.integrationTime.toNat + r.toNat) % 256 ∧
    decode9 (TErr := TErr) (frameBytes f.distance f.strength f.integrationTime r c) = .ok f ∧
    ∀ w : Window, w[7] = r → decode9 (TErr := TErr) w = .ok f →
      w = frameBytes f.distance f.strength f.integrationTime r c)

/-- R44: any reserved byte is accepted, with exactly one checksum byte, and the Frame does not depend
on it. -/
def Obligations.ReservedByteIsOnlySummed : Prop :=
  ∀ (TErr : Type) (d st : Half) (t r : Byte), ∃ c : Byte,
    decode9 (TErr := TErr) (frameBytes d st t r c) =
      .ok { distance := d, strength := st, integrationTime := t } ∧
    ∀ c' : Byte, c' ≠ c → decode9 (TErr := TErr) (frameBytes d st t r c') = .err .invalidChecksum

/-! ### Encoding -/

/-- R40, R7: the fields of a frame by the bits of the word `F`, and that the nine bytes and the word
are two views of one thing. -/
def Obligations.FrameFieldsByBits : Prop :=
  (∀ f : FrameWord,
    (windowOfWord f)[0] = f.extractLsb' 0 8 ∧ (windowOfWord f)[1] = f.extractLsb' 8 8 ∧
    read16 (windowOfWord f) OFF_DIST = f.extractLsb' 16 16 ∧
    read16 (windowOfWord f) OFF_STR = f.extractLsb' 32 16 ∧
    read8 (windowOfWord f) OFF_ITIME = f.extractLsb' 48 8 ∧
    read8 (windowOfWord f) OFF_RSVD = f.extractLsb' 56 8 ∧
    read8 (windowOfWord f) OFF_CSUM = f.extractLsb' 64 8 ∧
    wordOfWindow (windowOfWord f) = f) ∧
  (∀ w : Window, windowOfWord (wordOfWindow w) = w)

/-- R41: both header bytes are compared, each for equality of all eight bits, and the check is the mask
match `F & 0xFFFF == 0x5959`. -/
def Obligations.HeaderIsMaskMatch : Prop :=
  ∀ f : FrameWord,
    ((f &&& 0xFFFF#72 = 0x5959#72) ↔ (windowOfWord f)[0] = 0x59 ∧ (windowOfWord f)[1] = 0x59) ∧
    ((f &&& 0xFFFF#72 = 0x5959#72) ↔ headerOk (windowOfWord f) = true)

/-- Words written out from the spec's encodings decode to the instructions they stand for. That the
phase codes and the reset line are decoded like words is the model's choice (log entry 6). -/
def Obligations.SpecWordsDecode : Prop :=
  decode (.frame #v[0x59, 0x59, 0x34, 0x12, 0x0A, 0x00, 0x05, 0x00, 0x07]) =
    .ok (.data 0x1234 0x000A 0x05 0x00 0x07) ∧
  decode (.cmd 0#1) = .ok .decodeSp ∧ decode (.cmd 1#1) = .ok .cancel ∧
  (∀ e, decode (.rx ⟨0#1, 0x34, e⟩) = .ok (.rxbyte 0x34)) ∧
  (∀ b e, decode (.rx ⟨1#1, b, e⟩) = .ok (.rxfail e)) ∧
  decode (.phase 2#3) = .ok .hdrstep ∧ decode (.phase 3#3) = .ok .csumstep ∧
  decode .resetLine = .ok .reset

/-- Decoding the word of a well-formed instruction gives the instruction back, `DECODE` as the
`DECODE_SP` it expands to; exactly the three pure functions have no word. That `HDRSTEP`, `CSUMSTEP`
and `RESET` are given words, and so which instructions have none, is the model's choice (log entry
6); that `START` reads as `DECODE_SP` is the model's reading of R53 (DEDUCED, log entry 12). -/
def Obligations.DecodeOfEncode : Prop :=
  ∀ i : Instr, i.wellFormed = true →
    (∀ c : ChanWord, encode i = some c → decode c = .ok (expand i)) ∧
    (encode i = none ↔ i = .chkhdr ∨ i = .chksum ∨ i = .parse)

/-- What the decoder reads from a wire window is well formed and encodes to that very window: no bit
of a frame is dropped. -/
def Obligations.EncodeOfDecodedFrame : Prop :=
  ∀ (w : Window) (i : Instr), decode (.frame w) = .ok i →
    i.wellFormed = true ∧ encode i = some (.frame w)

/-- R46: the three classes, tested in this order, and what the decoder answers for each. -/
def Obligations.DecoderRejectsByClass : Prop :=
  ∀ w : Window,
    (decode (.frame w) = .error .invalidStartFrame ↔ w[0] ≠ 0x59 ∨ w[1] ≠ 0x59) ∧
    (decode (.frame w) = .error .invalidChecksum ↔
      w[0] = 0x59 ∧ w[1] = 0x59 ∧ exactSum w % 256 ≠ w[8].toNat) ∧
    ((∃ i, decode (.frame w) = .ok i) ↔
      w[0] = 0x59 ∧ w[1] = 0x59 ∧ exactSum w % 256 = w[8].toNat)

/-! ### The step rules -/

/-- R62, R63: `START`, in both spellings. It completes in `IDLE`, `PARSED` and `FAILED`, drops the
previous result, has no step while busy, and does not touch the byte source; both spellings are the
one word `cmd = 0`. -/
def Obligations.StartBeginsCall : Prop :=
  ∀ (i : Instr) (s : State), i = .decodeSp ∨ i = .decode →
    encode i = some (.cmd 0) ∧
    (s.block.ph = .idle ∨ s.block.ph = .parsed ∨ s.block.ph = .failed →
      ∃ t, exec i s = .next t ∧
        t = { s with block := { s.block with ph := .awaitingBytes, cnt := 0, err := .none } } ∧
        t.block.done = false ∧ t.block.result = none) ∧
    (s.block.busy = true → NoStep i s)

/-- R64: `RXBYTE(b)`: in `AWAITING_BYTES` with `cnt <= 8` it completes, whatever the byte; the byte
goes to `buf[cnt]`, every other byte of the buffer and every other register keeps its value, the
ninth byte moves the phase on; the accepted byte is consumed; elsewhere it has no step and the byte
stays with the byte source. The lists that hold the offers are the model's choice (log entry 1), and
so is that a step without an acceptance is a next state (log entry 4). -/
def Obligations.RxbyteStoresAtCnt : Prop :=
  ∀ (b : Byte) (s : State),
    (∀ e : Config.ErrBits, decode (.rx ⟨0, b, e⟩) = .ok (.rxbyte b)) ∧
    (s.block.ph = .awaitingBytes → s.block.cnt.val ≤ 8 →
      (∃ t, exec (.rxbyte b) s = .next t ∧
        (∀ (k : Nat) (h : k < 9),
          t.block.buf[k] = if k = s.block.cnt.val then b else s.block.buf[k]) ∧
        t.block.cnt.val = s.block.cnt.val + 1 ∧
        t.block.ph = (if s.block.cnt.val = 8 then .headerCheck else .awaitingBytes) ∧
        t.block.dist = s.block.dist ∧ t.block.str = s.block.str ∧ t.block.itime = s.block.itime ∧
        t.block.err = s.block.err ∧ t.block.terr = s.block.terr ∧
        t.env = s.env ∧ t.fnValue = s.fnValue) ∧
      (∀ (e : Config.ErrBits) (rs : List RxWord) (ts : List Turn),
        s.env.rx = ⟨0, b, e⟩ :: rs → s.env.turns = .source :: ts →
        ∃ t, step s = .next t ∧ t.env.rx = rs)) ∧
    (s.block.ph ≠ .awaitingBytes → NoStep (.rxbyte b) s ∧
      ∀ (e : Config.ErrBits) (rs : List RxWord) (ts : List Turn),
        s.env.rx = ⟨0, b, e⟩ :: rs → s.env.turns = .source :: ts →
        ∃ t, step s = .next t ∧ t.block = s.block ∧ t.env.rx = s.env.rx)

/-- R25: "there is no offset 9 or above": a byte accepted with `cnt = 9`, which no run reaches
(R20 (b)), stops the machine. That the stop is this fault is the model's choice (log entry 11). -/
def Obligations.NoNinthOffset : Prop :=
  ∀ (b : Byte) (s : State), s.block.ph = .awaitingBytes → s.block.cnt.val = 9 →
    exec (.rxbyte b) s = .fault .bufOffset

/-- R65: `RXFAIL(e)` raises `ReadError(e)` after any number of bytes, carrying `e` unchanged, and is
consumed; the bytes already stored are neither judged nor given back, and not part of the next call's
window, which is made of its own nine bytes alone; elsewhere it has no step and the failure stays with
the byte source. The lists that hold the offers are the model's choice (log entry 1), and so is that a
step without an acceptance is a next state (log entry 4). -/
def Obligations.RxfailRaisesReadError : Prop :=
  ∀ (e : Config.ErrBits) (s : State),
    (∀ b : Byte, decode (.rx ⟨1, b, e⟩) = .ok (.rxfail e)) ∧
    (s.block.ph = .awaitingBytes →
      (∃ t, exec (.rxfail e) s = .next t ∧
        t = { s with block := { s.block with ph := .failed, err := .readError, terr := e } } ∧
        t.block.result = some (.err (.readError e)) ∧
        (∃ u, exec .decodeSp t = .next u ∧ u.block.ph = .awaitingBytes ∧ u.block.cnt.val = 0) ∧
        ∀ w : Window, ∃ u, runInstrs (.decodeSp :: w.toList.map Instr.rxbyte) t = .next u ∧
          u.block.ph = .headerCheck ∧ u.block.buf = w) ∧
      (∀ (b : Byte) (rs : List RxWord) (ts : List Turn),
        s.env.rx = ⟨1, b, e⟩ :: rs → s.env.turns = .source :: ts →
        ∃ t, step s = .next t ∧ t.env.rx = rs)) ∧
    (s.block.ph ≠ .awaitingBytes → NoStep (.rxfail e) s ∧
      ∀ (b : Byte) (rs : List RxWord) (ts : List Turn),
        s.env.rx = ⟨1, b, e⟩ :: rs → s.env.turns = .source :: ts →
        ∃ t, step s = .next t ∧ t.block = s.block ∧ t.env.rx = s.env.rx)

/-- R66: `HDRSTEP`: the code 2 of `ph` selects it and the block takes it without input; the header
alone decides, the checksum is not looked at; no input but `RESET` is accepted in `HEADER_CHECK`;
in every other phase it is not enabled. That the code of `ph` is decoded like a word is the model's
choice (log entry 6), and so is the list of turns (log entry 1); that the block moves when it is used
up is the model's reading of R99 (log entry 10). -/
def Obligations.HdrstepJudgesHeader : Prop :=
  ∀ s : State,
    (∀ c : BitVec 3, decode (.phase c) = .ok .hdrstep ↔ c = 2) ∧
    (s.block.ph = .headerCheck → s.env.turns = [] → step s = exec .hdrstep s) ∧
    (s.block.ph = .headerCheck → s.block.buf[0] = 0x59 → s.block.buf[1] = 0x59 →
      exec .hdrstep s = .next { s with block := { s.block with ph := .checksumCheck } }) ∧
    (s.block.ph = .headerCheck → s.block.buf[0] ≠ 0x59 ∨ s.block.buf[1] ≠ 0x59 →
      exec .hdrstep s =
        .next { s with block := { s.block with ph := .failed, err := .invalidStartFrame } }) ∧
    (s.block.ph = .headerCheck → (∀ i, isChannelEvent i = true → NoStep i s) ∧
      ∃ t, exec .reset s = .next t ∧ t.block.ph = .idle) ∧
    (s.block.ph ≠ .headerCheck → NoStep .hdrstep s)

/-- R67: `CSUMSTEP`: the code 3 of `ph` selects it and the block takes it without input; on a pass
the Frame is extracted in the same step, on a failure the result registers are not written; no input
but `RESET` is accepted in `CHECKSUM_CHECK`; in every other phase it is not enabled. That the code of
`ph` is decoded like a word is the model's choice (log entry 6), and so is the list of turns (log
entry 1); that the block moves when it is used up is the model's reading of R99 (log entry 10). -/
def Obligations.CsumstepJudgesChecksum : Prop :=
  ∀ s : State,
    (∀ c : BitVec 3, decode (.phase c) = .ok .csumstep ↔ c = 3) ∧
    (s.block.ph = .checksumCheck → s.env.turns = [] → step s = exec .csumstep s) ∧
    (s.block.ph = .checksumCheck → exactSum s.block.buf % 256 = s.block.buf[8].toNat →
      ∃ d st : Half,
        d.toNat = s.block.buf[2].toNat + 256 * s.block.buf[3].toNat ∧
        st.toNat = s.block.buf[4].toNat + 256 * s.block.buf[5].toNat ∧
        exec .csumstep s =
          .next { s with block := { s.block with ph := .parsed, dist := d, str := st, itime := s.block.buf[6] } }) ∧
    (s.block.ph = .checksumCheck → exactSum s.block.buf % 256 ≠ s.block.buf[8].toNat →
      exec .csumstep s =
        .next { s with block := { s.block with ph := .failed, err := .invalidChecksum } }) ∧
    (s.block.ph = .checksumCheck → (∀ i, isChannelEvent i = true → NoStep i s) ∧
      ∃ t, exec .reset s = .next t ∧ t.block.ph = .idle) ∧
    (s.block.ph ≠ .checksumCheck → NoStep .csumstep s)

/-- R68: `CANCEL`: the word `cmd = 1`; from `AWAITING_BYTES` to `IDLE` with no result and nothing given
back to the byte source; a `START` is accepted at once afterwards; elsewhere it has no step. -/
def Obligations.CancelAbandonsRead : Prop :=
  ∀ s : State,
    encode .cancel = some (.cmd 1) ∧
    (s.block.ph = .awaitingBytes →
      ∃ t, exec .cancel s = .next t ∧ t = { s with block := { s.block with ph := .idle } } ∧
        t.block.done = false ∧ t.block.result = none ∧
        exec .decodeSp t = .next { t with block := { t.block with ph := .awaitingBytes, cnt := 0, err := .none } }) ∧
    (s.block.ph ≠ .awaitingBytes → NoStep .cancel s)

/-- R90: `RESET` is accepted in every state and is no CMD event; any call or result is dropped; the
data registers are not written; nothing is taken from the byte source (R91); asserted, it is the next
step, whatever else is offered. That the list of turns says whose turn it is, is the model's choice
(log entry 1). -/
def Obligations.ResetAcceptedEverywhere : Prop :=
  ∀ s : State,
    (∃ t, exec .reset s = .next t ∧
      t = { s with block := { s.block with ph := .idle, cnt := 0, err := .none } } ∧
      t.block.busy = false ∧ t.block.result = none) ∧
    (∀ c : BitVec 1, decode (.cmd c) ≠ .ok .reset) ∧
    (∀ ts : List Turn, s.env.turns = .reset :: ts → ∃ t, step s = .next t ∧
      t.block = { s.block with ph := .idle, cnt := 0, err := .none } ∧
      t.env.rx = s.env.rx ∧ t.env.cmd = s.env.cmd)

/-- An event that the acceptance table of R70 leaves blank is answered with the unchanged state. That
"no step" is a next state and no stop is the model's choice (log entry 4); the clause on a wire frame,
which is no column of that table, rests on the model's meaning of `DATA` (log entry 8). -/
def Obligations.BlankInAcceptanceTableWaits : Prop :=
  ∀ s : State,
    (s.block.busy = true → exec .decodeSp s = .next s ∧ exec .decode s = .next s) ∧
    (s.block.ph ≠ .awaitingBytes → exec .cancel s = .next s ∧ (∀ b, exec (.rxbyte b) s = .next s) ∧
      (∀ e, exec (.rxfail e) s = .next s) ∧
      ∀ d st t r c, exec (.data d st t r c) s = .next s) ∧
    (s.block.ph ≠ .headerCheck → exec .hdrstep s = .next s) ∧
    (s.block.ph ≠ .checksumCheck → exec .csumstep s = .next s)

/-! ### The wire frame as a whole -/

/-- A well-formed wire frame met at the start of a call completes: the block ends in `PARSED` with
the frame's fields (R60, R71 (a)). That `DATA` is given as one
effect is the model's choice (log entry 8). -/
def Obligations.DataFrameIsParsed : Prop :=
  ∀ (d st : Half) (it r c : Byte) (s : State), s.block.ph = .awaitingBytes → s.block.cnt.val = 0 →
    (Instr.data d st it r c).wellFormed = true →
    exec (.data d st it r c) s = .next { s with block :=
      { s.block with buf := frameBytes d st it r c, cnt := 9, ph := .parsed, dist := d, str := st, itime := it } }

/-- A wire frame with a wrong checksum byte met at the start of a call ends it with
`InvalidChecksum`; the result registers are not written (R60, R71 (a); log entry 8). -/
def Obligations.DataWithWrongChecksumFails : Prop :=
  ∀ (d st : Half) (it r c : Byte) (s : State), s.block.ph = .awaitingBytes → s.block.cnt.val = 0 →
    (Instr.data d st it r c).wellFormed = false →
    exec (.data d st it r c) s = .next { s with block :=
      { s.block with buf := frameBytes d st it r c, cnt := 9, ph := .failed, err := .invalidChecksum } }

/-- `DATA` is nothing but the steps it stands for: nine `RXBYTE`s, `HDRSTEP`, `CSUMSTEP` (R71 (a)), at
whatever count the frame meets the block (log entry 8). -/
def Obligations.DataIsItsSteps : Prop :=
  ∀ (d st : Half) (it r c : Byte) (s : State), s.block.ph = .awaitingBytes →
    exec (.data d st it r c) s =
      runInstrs ((frameBytes d st it r c).toList.map Instr.rxbyte ++ [.hdrstep, .csumstep]) s

/-- Illegal encodings "make the call fail with their error kind and have no other effect" (R47): nine
bytes of a window of class `BADHDR` or `BADSUM`, handed over at the start of a call with any payload of
the other kind (R50), are consumed and end the call; the result registers are not written. The turns
are the model's choice (log entry 1), and so is that a turn with no step is a next state (log entry 4). -/
def Obligations.IllegalWindowFailsTheCall : Prop :=
  ∀ (w : Window) (s : State) (xs rs : List RxWord) (ts : List Turn),
    s.block.ph = .awaitingBytes → s.block.cnt.val = 0 →
    handOver xs w.toList → s.env.rx = xs ++ rs → s.env.turns = frameTurns ++ ts → classify w ≠ .data →
    Sys2Proof.core.run 11 s = .next { s with
      block := { s.block with buf := w, cnt := 9, ph := .failed,
                              err := if classify w = .badHdr then .invalidStartFrame else .invalidChecksum }
      env := { s.env with rx := rs, turns := ts } }

/-- A window of any class, handed over byte by byte at any count with any payload of the other kind
(R50), and judged: of its nine words the block takes as many as it has room for, each byte to its
offset, and leaves the rest with the byte source (R64 (b), R72); the call ends with `decode9` of the
buffer; and for a wire frame the block is what `DATA` makes of it. The turns are the model's choice (log
entry 1), and so are `DATA` as one effect (log entry 8) and that a turn with no step is a next state
(log entry 4). -/
def Obligations.FrameRunsByteByByte : Prop :=
  ∀ (w : Window) (s : State) (xs rs : List RxWord) (ts : List Turn),
    s.block.ph = .awaitingBytes → s.block.cnt.val ≤ 8 →
    handOver xs w.toList → s.env.rx = xs ++ rs → s.env.turns = frameTurns ++ ts →
    ∃ t, Sys2Proof.core.run 11 s = .next t ∧
      t.env = { s.env with rx := xs.drop (9 - s.block.cnt.val) ++ rs, turns := ts } ∧
      (∀ (k : Nat) (h : k < 9), k < s.block.cnt.val → t.block.buf[k] = s.block.buf[k]) ∧
      (∀ (k : Nat) (h : s.block.cnt.val + k < 9), t.block.buf[s.block.cnt.val + k] = w[k]) ∧
      t.block.cnt.val = 9 ∧ t.block.result = some (decode9 t.block.buf) ∧
      ∀ d st it r c, w = frameBytes d st it r c →
        exec (.data d st it r c) s = .next { s with block := t.block }

/-! ### Rules about all instructions -/

/-- R69: the rows of the transition table, with the registers each writes, are all that an
instruction other than the whole wire frame does to the block (`DATA` is covered by
`DataIsItsSteps`). -/
def Obligations.TransitionsAreTheTable : Prop :=
  ∀ (i : Instr) (s t : State), isAtomic i = true → exec i s = .next t →
    t.block = s.block ∨
    ((i = .decodeSp ∨ i = .decode) ∧
      (s.block.ph = .idle ∨ s.block.ph = .parsed ∨ s.block.ph = .failed) ∧
      t.block = { s.block with ph := .awaitingBytes, cnt := 0, err := .none }) ∨
    (∃ (b : Byte) (h : s.block.cnt.val ≤ 7), i = .rxbyte b ∧ s.block.ph = .awaitingBytes ∧
      t.block = { s.block with buf := s.block.buf.set s.block.cnt.val b, cnt := ⟨s.block.cnt.val + 1, by omega⟩ }) ∨
    (∃ b : Byte, i = .rxbyte b ∧ s.block.ph = .awaitingBytes ∧ s.block.cnt.val = 8 ∧
      t.block = { s.block with buf := s.block.buf.set 8 b, cnt := 9, ph := .headerCheck }) ∨
    (∃ e, i = .rxfail e ∧ s.block.ph = .awaitingBytes ∧
      t.block = { s.block with ph := .failed, err := .readError, terr := e }) ∨
    (i = .cancel ∧ s.block.ph = .awaitingBytes ∧ t.block = { s.block with ph := .idle }) ∨
    (i = .hdrstep ∧ s.block.ph = .headerCheck ∧ headerOk s.block.buf = true ∧
      t.block = { s.block with ph := .checksumCheck }) ∨
    (i = .hdrstep ∧ s.block.ph = .headerCheck ∧ headerOk s.block.buf = false ∧
      t.block = { s.block with ph := .failed, err := .invalidStartFrame }) ∨
    (i = .csumstep ∧ s.block.ph = .checksumCheck ∧ checksumOk s.block.buf = true ∧
      t.block = { s.block with
        ph := .parsed, dist := le16 s.block.buf[2] s.block.buf[3], str := le16 s.block.buf[4] s.block.buf[5],
        itime := s.block.buf[6] }) ∨
    (i = .csumstep ∧ s.block.ph = .checksumCheck ∧ checksumOk s.block.buf = false ∧
      t.block = { s.block with ph := .failed, err := .invalidChecksum }) ∨
    (i = .reset ∧ t.block = { s.block with ph := .idle, cnt := 0, err := .none })

/-- R83: entering `FAILED` writes `ph`, `err`, for `ReadError(e)` also `terr`, and nothing else; the
error is then the result. -/
def Obligations.ErrorEntryWritesOnlyTheCause : Prop :=
  ∀ (i : Instr) (s t : State), isAtomic i = true → exec i s = .next t →
    s.block.ph ≠ .failed → t.block.ph = .failed →
    (t = { s with block := { s.block with ph := .failed, err := .invalidStartFrame } } ∧
      t.block.result = some (.err .invalidStartFrame)) ∨
    (t = { s with block := { s.block with ph := .failed, err := .invalidChecksum } } ∧
      t.block.result = some (.err .invalidChecksum)) ∨
    (∃ e, i = .rxfail e ∧
      t = { s with block := { s.block with ph := .failed, err := .readError, terr := e } } ∧
      t.block.result = some (.err (.readError e)))

/-- R76: each error is raised by one named step, under its condition. -/
def Obligations.EachErrorHasOneRaiser : Prop :=
  ∀ (i : Instr) (s t : State), isAtomic i = true → exec i s = .next t →
    s.block.ph ≠ .failed → t.block.ph = .failed →
    (t.block.err = .invalidStartFrame → i = .hdrstep ∧ s.block.ph = .headerCheck ∧
      (s.block.buf[0] ≠ 0x59 ∨ s.block.buf[1] ≠ 0x59)) ∧
    (t.block.err = .invalidChecksum → i = .csumstep ∧ s.block.ph = .checksumCheck ∧
      exactSum s.block.buf % 256 ≠ s.block.buf[8].toNat) ∧
    (t.block.err = .readError → ∃ e, i = .rxfail e ∧ s.block.ph = .awaitingBytes ∧ t.block.terr = e)

/-- R11, R26: only received bytes change `buf`: the bytes outside `buf[cnt]` keep their value under
`RXBYTE`, all nine under every other instruction but a whole wire frame. -/
def Obligations.BufferIsWrittenOnlyByBytes : Prop :=
  ∀ (i : Instr) (s t : State), isAtomic i = true → exec i s = .next t →
    ∀ (k : Nat) (h : k < 9), t.block.buf[k] ≠ s.block.buf[k] →
      s.block.ph = .awaitingBytes ∧ k = s.block.cnt.val ∧ i = .rxbyte t.block.buf[k]

/-- R14, R22: the result registers change only in the step into `PARSED`, by `CSUMSTEP` or by a whole
wire frame, on a buffer that passes both checks. That a whole wire frame, which is made of steps that
end in `CSUMSTEP`, has an effect of its own is the model's choice (log entry 8). -/
def Obligations.FrameRegistersWrittenOnlyOnPass : Prop :=
  ∀ (i : Instr) (s t : State), s.block.Inv → exec i s = .next t →
    (t.block.dist ≠ s.block.dist ∨ t.block.str ≠ s.block.str ∨ t.block.itime ≠ s.block.itime) →
    (i = .csumstep ∨ ∃ d st it r c, i = .data d st it r c) ∧ t.block.ph = .parsed ∧
    t.block.buf[0] = 0x59 ∧ t.block.buf[1] = 0x59 ∧ exactSum t.block.buf % 256 = t.block.buf[8].toNat

/-- R16: `terr` is written only by `RXFAIL(e)`, with `e` unchanged. -/
def Obligations.TransportErrorWrittenOnlyByRxfail : Prop :=
  ∀ (i : Instr) (s t : State), exec i s = .next t → t.block.terr ≠ s.block.terr →
    i = .rxfail t.block.terr

/-- R85, R86, R87: in `FAILED` a step of the closed system either leaves the block as it is, or is a
`START` or a `RESET`. -/
def Obligations.FailedIsLeftOnlyByStartOrReset : Prop :=
  ∀ s t : State, s.block.ph = .failed → step s = .next t →
    t.block = s.block ∨
    (s.offered = some (.cmd 0) ∧ t.block.ph = .awaitingBytes ∧ t.block.err = .none) ∨
    (s.offered = some .resetLine ∧ t.block.ph = .idle ∧ t.block.err = .none)

/-! ### The closed system -/

/-- A step runs the decoded instruction, on the state with the turn over and the accepted words taken
from their channel, the block and `fnValue` as they were (log entry 1 for the turns). -/
def Obligations.StepRunsDecodedInstruction : Prop :=
  ∀ (s : State) (w : ChanWord) (i : Instr), s.offered = some w → decode w = .ok i →
    step s = exec i (s.take w) ∧ (s.take w).block = s.block ∧ (s.take w).fnValue = s.fnValue ∧
    (s.take w).env.turns = s.env.turns.tail

/-- R9: a step takes at most one event. Where it does anything but let the turn pass, it is one step of
R9, run on the block alone: a CMD event takes the head of the commands or nothing, an RX event the head of
the RX words or nothing, an internal step and `RESET` take nothing. That the channels and the
turns are lists is the model's choice (log entry 1). -/
def Obligations.StepIsAtMostOneEvent : Prop :=
  ∀ s t : State, step s = .next t →
    t.fnValue = s.fnValue ∧ t.env.turns = s.env.turns.tail ∧
    ((t.block = s.block ∧ t.env.cmd = s.env.cmd ∧ t.env.rx = s.env.rx) ∨
     ∃ i, isStep i = true ∧ accepts i s.block.ph = true ∧ exec i s = .next { s with block := t.block } ∧
      ((isCmdEvent i = true ∧ t.env.rx = s.env.rx ∧ ∃ c, decode (.cmd c) = .ok i ∧ s.env.cmd = c :: t.env.cmd) ∨
       (isRxEvent i = true ∧ t.env.cmd = s.env.cmd ∧ ∃ x, decode (.rx x) = .ok i ∧ s.env.rx = x :: t.env.rx) ∨
       (takesNoEvent i = true ∧ t.env.cmd = s.env.cmd ∧ t.env.rx = s.env.rx)))

/-- A word numbered as the opcode table numbers it, placed by `withFetchWord`, is what the next step is
offered; a wire frame is placed as its nine bytes, in order, with the turns that hand them over and
judge them, and the block as it was. Which channel a numbered word is on, and where it is placed, is the
model's choice (log entries 6 and 7). -/
def Obligations.PlacedWordIsOffered : Prop :=
  ∀ (s : State) (nbits w : Nat) (c : ChanWord), tableWord nbits w = some c →
    ((∀ v, c ≠ .frame v) → (s.withFetchWord nbits w).offered = some c) ∧
    (∀ v, c = .frame v → ∃ xs, handOver xs v.toList ∧ s.withFetchWord nbits w =
      { s with env := { s.env with rx := xs ++ s.env.rx, turns := frameTurns ++ s.env.turns } })

/-- R32, R34, R70: an RX event is consumed exactly when it is accepted, and a command likewise; the
other channel keeps what it holds; where the block itself moves, `RESET` is asserted or nobody offers
anything, nothing is consumed. (A wire frame is handed over in nine such turns of the byte source:
`FrameRunsByteByByte`.) That the channels are lists is the model's choice (log entry 1). -/
def Obligations.OnlyAcceptedOffersAreConsumed : Prop :=
  ∀ s t : State, step s = .next t →
    (∀ (x : RxWord) (rs : List RxWord) (ts : List Turn), s.env.rx = x :: rs → s.env.turns = .source :: ts →
      t.env.cmd = s.env.cmd ∧ t.env.rx = if s.block.ph = .awaitingBytes then rs else x :: rs) ∧
    (∀ (cs : List (BitVec 1)) (ts : List Turn), s.env.cmd = 0 :: cs → s.env.turns = .caller :: ts →
      t.env.rx = s.env.rx ∧ t.env.cmd = if s.block.busy = true then 0 :: cs else cs) ∧
    (∀ (cs : List (BitVec 1)) (ts : List Turn), s.env.cmd = 1 :: cs → s.env.turns = .caller :: ts →
      t.env.rx = s.env.rx ∧ t.env.cmd = if s.block.ph = .awaitingBytes then cs else 1 :: cs) ∧
    (∀ ts : List Turn, s.env.turns = [] ∨ s.env.turns = .block :: ts ∨ s.env.turns = .reset :: ts ∨
        (s.env.turns = .source :: ts ∧ s.env.rx = []) ∨ (s.env.turns = .caller :: ts ∧ s.env.cmd = []) →
      t.env.rx = s.env.rx ∧ t.env.cmd = s.env.cmd)

/-- D26, U14: `CANCEL` and a byte offered together are taken in either order, and both outcomes are
there; a byte taken first that is the ninth moves the block to `HEADER_CHECK`, and `CANCEL` then waits
(R64, R68 (c)). The order is the turns', the model's choice (log entry 1), and so is that the wait is a
next state (log entry 4). -/
def Obligations.CancelAndByteInEitherOrder : Prop :=
  ∀ (s : State) (v : Byte) (e : Config.ErrBits) (cs : List (BitVec 1)) (rs : List RxWord) (ts : List Turn),
    s.block.ph = .awaitingBytes → s.block.cnt.val ≤ 8 →
    s.env.cmd = 1 :: cs → s.env.rx = ⟨0, v, e⟩ :: rs →
    (s.env.turns = .caller :: .source :: ts →
      ∃ t, Sys2Proof.core.run 2 s = .next t ∧ t.block.ph = .idle ∧ t.block.cnt = s.block.cnt ∧
        t.env.rx = ⟨0, v, e⟩ :: rs ∧ t.env.cmd = cs) ∧
    (s.env.turns = .source :: .caller :: ts →
      ∃ t, Sys2Proof.core.run 2 s = .next t ∧ t.block.cnt.val = s.block.cnt.val + 1 ∧ t.env.rx = rs ∧
        t.block.ph = (if s.block.cnt.val = 8 then .headerCheck else .idle) ∧
        t.env.cmd = (if s.block.cnt.val = 8 then 1 :: cs else cs))

/-- R75, R97: with nothing offered the block in `AWAITING_BYTES` stays where it is for ever: no
timeout, no error, no default result. That the wait is a sequence of unchanged states is the model's
choice (log entry 4). -/
def Obligations.WaitsWithoutBound : Prop :=
  ∀ (s : State) (k : Nat), s.block.ph = .awaitingBytes → s.env.turns = [] →
    Sys2Proof.core.run k s = .next s

/-! ### Invariants -/

/-- The invariant of R20 holds after reset. -/
def Obligations.ResetMeetsInvariant : Prop := State.reset.block.Inv

/-- R20: every step of the closed system keeps the invariant. -/
def Obligations.StepKeepsInvariant : Prop :=
  ∀ s t : State, s.block.Inv → step s = .next t → t.block.Inv

/-- R76: "There is no fatal/unrecoverable-crash path inside this core": from a state that meets the
invariant of R20 no run of the closed system, however long, meets a fault or a refusal. -/
def Obligations.NoRunStops : Prop :=
  ∀ (s : State) (k : Nat), s.block.Inv → SafeFor k s

/-- R20 (b), (c): the bytes of a call stand in `buf` in the order they were accepted. -/
def Obligations.BytesStandInArrivalOrder : Prop :=
  ∀ (s : State) (bs : List Byte), s.block.ph = .idle ∨ s.block.ph = .parsed ∨ s.block.ph = .failed →
    bs.length ≤ 9 →
    ∃ t, runInstrs (.decodeSp :: bs.map Instr.rxbyte) s = .next t ∧ t.block.HasRead bs ∧
      t.block.ph = (if bs.length = 9 then .headerCheck else .awaitingBytes)

/-- R15: `err != NONE` exactly when `ph = FAILED`; with it, `result` is there exactly when `done`
(R18), in every state that meets the invariant. -/
def Obligations.ErrorExactlyWhenFailed : Prop :=
  ∀ (TErr : Type) (b : Block TErr), b.Inv → (b.err ≠ .none ↔ b.ph = .failed) ∧ (b.result.isSome = true ↔ b.done = true)

/-! ### Whole calls -/

/-- R71 (a), R72, R100: a call whose nine RX events are bytes, with any payload of the other kind (R50),
ends, after `HDRSTEP` and `CSUMSTEP`, with `result = decode9` of exactly these bytes, in `PARSED` or
`FAILED`, and has consumed exactly nine words, whatever they are. It does not depend on the state the
call started in. The turns are the model's choice (log entry 1), and so is that, after a bad header, the
turn left for `CSUMSTEP` is a wait and a next state (log entry 4). -/
def Obligations.WholeCallReturnsDecodedWindow : Prop :=
  ∀ (s : State) (w : Window) (cs : List (BitVec 1)) (xs rs : List RxWord) (ts : List Turn),
    s.block.ph = .idle ∨ s.block.ph = .parsed ∨ s.block.ph = .failed →
    s.env.cmd = 0 :: cs → handOver xs w.toList → s.env.rx = xs ++ rs →
    s.env.turns = .caller :: (frameTurns ++ ts) →
    ∃ t, Sys2Proof.core.run 12 s = .next t ∧ t.block.result = some (decode9 w) ∧
      t.block.done = true ∧ t.block.buf = w ∧
      t.env = { s.env with cmd := cs, rx := rs, turns := ts }

/-- R71 (b), S5: a read that fails after `k` bytes, `0 <= k <= 8`, ends the call with
`ReadError(e)`, having consumed exactly `k + 1` words, whatever their payloads of the other kind (R50);
no Frame is produced. The turns are the model's choice (log entry 1). -/
def Obligations.FailedReadReturnsReadError : Prop :=
  ∀ (s : State) (bs : List Byte) (v : Byte) (e : Config.ErrBits) (cs : List (BitVec 1))
    (xs rs : List RxWord) (ts : List Turn),
    s.block.ph = .idle ∨ s.block.ph = .parsed ∨ s.block.ph = .failed → bs.length ≤ 8 →
    s.env.cmd = 0 :: cs → handOver xs bs →
    s.env.rx = xs ++ (⟨1, v, e⟩ :: rs) →
    s.env.turns = .caller :: (List.replicate (bs.length + 1) .source ++ ts) →
    ∃ t, Sys2Proof.core.run (bs.length + 2) s = .next t ∧
      t.block.result = some (.err (.readError e)) ∧ t.block.ph = .failed ∧ t.block.cnt.val = bs.length ∧
      t.block.dist = s.block.dist ∧ t.block.str = s.block.str ∧ t.block.itime = s.block.itime ∧
      t.env = { s.env with cmd := cs, rx := rs, turns := ts }

/-- R21, R74: no step reads a bit that an earlier call wrote: two blocks in the same call, in the same
environment, stay in the same call, and their results agree. -/
def Obligations.StepReadsOnlyThisCall : Prop :=
  ∀ s t s' : State, s.block.Inv → t.block.Inv → s.env = t.env → s.block.SameCall t.block →
    step s = .next s' →
    ∃ t', step t = .next t' ∧ t'.env = s'.env ∧ s'.block.SameCall t'.block ∧
      s'.block.result = t'.block.result

/-- R74, R63: after `START`, in either spelling, any two blocks are in the same call, whatever phases,
errors, results and buffers they held before. -/
def Obligations.StartForgetsEarlierCalls : Prop :=
  ∀ (i j : Instr) (s t : State), (i = .decodeSp ∨ i = .decode) → (j = .decodeSp ∨ j = .decode) →
    (s.block.ph = .idle ∨ s.block.ph = .parsed ∨ s.block.ph = .failed) →
    (t.block.ph = .idle ∨ t.block.ph = .parsed ∨ t.block.ph = .failed) →
    ∃ s' t', exec i s = .next s' ∧ exec j t = .next t' ∧ s'.block.SameCall t'.block

/-! ### The type of the transport's errors -/

/-- R6, R16: the type `TErr` is opaque. For any two types and any `f` from one to the other, with nothing
assumed of either, whatever the block does to the errors of the one it does to those of the other: a
block whose errors are carried over by `f` does what the block did, its errors carried over. So no
operation inspects, compares or alters an error, and for an `f` that codes errors in `EW` bits the
hardware's block is the coded image of the block over `TErr`. -/
def Obligations.TransportErrorIsOpaque : Prop :=
  ∀ (α β : Type) (f : α → β) (b : Block α),
    (b.map f).startCall = b.startCall.map f ∧ (b.map f).abandon = b.abandon.map f ∧
    (b.map f).resetSequencer = b.resetSequencer.map f ∧
    (∀ e : FrameError α, (b.map f).fail (mapError f e) = (b.fail e).map f) ∧
    (∀ v : Byte, (b.map f).receive v = (b.receive v).map (Block.map f)) ∧
    (∀ w : Window, (b.map f).receiveWindow w = (b.receiveWindow w).map (Block.map f)) ∧
    (b.map f).judgeHeader = b.judgeHeader.map f ∧ (b.map f).judgeChecksum = b.judgeChecksum.map f ∧
    (b.map f).hdrOk = b.hdrOk ∧ (b.map f).csumOk = b.csumOk ∧ (b.map f).ph = b.ph ∧
    (b.map f).busy = b.busy ∧ (b.map f).done = b.done ∧ (b.map f).result = b.result.map (mapResult f) ∧
    ((b.map f).Inv ↔ b.Inv)
end

