-- ==== Sys2Proof/Laws/State.lean ====
section
/-! SUPPORT. Laws/State.lean: one lemma per field per update of the state, each true by unfolding, so that no later proof unfolds a record update. -/

namespace Sys2Proof.Machine

variable {TErr : Type}

section Fail
variable (b : Block TErr) (e : FrameError TErr)

@[simp] theorem Block.fail_buf : (b.fail e).buf = b.buf := rfl
@[simp] theorem Block.fail_cnt : (b.fail e).cnt = b.cnt := rfl
@[simp] theorem Block.fail_ph : (b.fail e).ph = .failed := rfl
@[simp] theorem Block.fail_dist : (b.fail e).dist = b.dist := rfl
@[simp] theorem Block.fail_str : (b.fail e).str = b.str := rfl
@[simp] theorem Block.fail_itime : (b.fail e).itime = b.itime := rfl
@[simp] theorem Block.fail_err : (b.fail e).err = errKind e := rfl
@[simp] theorem Block.fail_terr_readError (v : TErr) : (b.fail (.readError v)).terr = v := rfl
@[simp] theorem Block.fail_terr_invalidStartFrame : (b.fail .invalidStartFrame).terr = b.terr := rfl
@[simp] theorem Block.fail_terr_invalidChecksum : (b.fail .invalidChecksum).terr = b.terr := rfl

end Fail

section StartCall
variable (b : Block TErr)

@[simp] theorem Block.startCall_buf : b.startCall.buf = b.buf := rfl
@[simp] theorem Block.startCall_cnt : b.startCall.cnt = 0 := rfl
@[simp] theorem Block.startCall_ph : b.startCall.ph = .awaitingBytes := rfl
@[simp] theorem Block.startCall_dist : b.startCall.dist = b.dist := rfl
@[simp] theorem Block.startCall_str : b.startCall.str = b.str := rfl
@[simp] theorem Block.startCall_itime : b.startCall.itime = b.itime := rfl
@[simp] theorem Block.startCall_err : b.startCall.err = .none := rfl
@[simp] theorem Block.startCall_terr : b.startCall.terr = b.terr := rfl

@[simp] theorem Block.abandon_buf : b.abandon.buf = b.buf := rfl
@[simp] theorem Block.abandon_cnt : b.abandon.cnt = b.cnt := rfl
@[simp] theorem Block.abandon_ph : b.abandon.ph = .idle := rfl
@[simp] theorem Block.abandon_dist : b.abandon.dist = b.dist := rfl
@[simp] theorem Block.abandon_str : b.abandon.str = b.str := rfl
@[simp] theorem Block.abandon_itime : b.abandon.itime = b.itime := rfl
@[simp] theorem Block.abandon_err : b.abandon.err = b.err := rfl
@[simp] theorem Block.abandon_terr : b.abandon.terr = b.terr := rfl

@[simp] theorem Block.resetSequencer_buf : b.resetSequencer.buf = b.buf := rfl
@[simp] theorem Block.resetSequencer_cnt : b.resetSequencer.cnt = 0 := rfl
@[simp] theorem Block.resetSequencer_ph : b.resetSequencer.ph = .idle := rfl
@[simp] theorem Block.resetSequencer_dist : b.resetSequencer.dist = b.dist := rfl
@[simp] theorem Block.resetSequencer_str : b.resetSequencer.str = b.str := rfl
@[simp] theorem Block.resetSequencer_itime : b.resetSequencer.itime = b.itime := rfl
@[simp] theorem Block.resetSequencer_err : b.resetSequencer.err = .none := rfl
@[simp] theorem Block.resetSequencer_terr : b.resetSequencer.terr = b.terr := rfl

end StartCall

section LoadFrame
variable (b : Block TErr) (f : Frame)

@[simp] theorem Block.loadFrame_buf : (b.loadFrame f).buf = b.buf := rfl
@[simp] theorem Block.loadFrame_cnt : (b.loadFrame f).cnt = b.cnt := rfl
@[simp] theorem Block.loadFrame_ph : (b.loadFrame f).ph = b.ph := rfl
@[simp] theorem Block.loadFrame_dist : (b.loadFrame f).dist = f.distance := rfl
@[simp] theorem Block.loadFrame_str : (b.loadFrame f).str = f.strength := rfl
@[simp] theorem Block.loadFrame_itime : (b.loadFrame f).itime = f.integrationTime := rfl
@[simp] theorem Block.loadFrame_err : (b.loadFrame f).err = b.err := rfl
@[simp] theorem Block.loadFrame_terr : (b.loadFrame f).terr = b.terr := rfl

end LoadFrame

section StateUpdates
variable (s : State)

@[simp] theorem State.gives_block (v : FnValue) : (s.gives v).block = s.block := rfl
@[simp] theorem State.gives_env (v : FnValue) : (s.gives v).env = s.env := rfl
@[simp] theorem State.gives_fnValue (v : FnValue) : (s.gives v).fnValue = some v := rfl

@[simp] theorem State.passTurn_block : s.passTurn.block = s.block := rfl
@[simp] theorem State.passTurn_fnValue : s.passTurn.fnValue = s.fnValue := rfl
@[simp] theorem State.passTurn_cmd : s.passTurn.env.cmd = s.env.cmd := rfl
@[simp] theorem State.passTurn_rx : s.passTurn.env.rx = s.env.rx := rfl
@[simp] theorem State.passTurn_turns : s.passTurn.env.turns = s.env.turns.tail := rfl

/-- Taking an offered word leaves the block alone. -/
@[simp] theorem State.take_block (w : ChanWord) : (s.take w).block = s.block := by cases w <;> rfl

@[simp] theorem State.take_fnValue (w : ChanWord) : (s.take w).fnValue = s.fnValue := by
  cases w <;> rfl

@[simp] theorem State.take_turns (w : ChanWord) : (s.take w).env.turns = s.env.turns.tail := by
  cases w <;> rfl

end StateUpdates

end Sys2Proof.Machine
end

