-- ==== Sys2Proof/Laws/Ops.lean ====
section
/-! SUPPORT. Laws/Ops.lean: for each shared operation one lemma that says once everything it can do; later proofs cite these and do not unfold the operation. -/

namespace Sys2Proof.Machine

variable {TErr : Type}

/-! ### The checks and the fields -/

theorem headerOk_iff (w : Window) : headerOk w = true ↔ w[0] = 0x59 ∧ w[1] = 0x59 := by
  simp [headerOk, HDR0, HDR1]

theorem headerOk_eq_false_iff (w : Window) : headerOk w = false ↔ w[0] ≠ 0x59 ∨ w[1] ≠ 0x59 := by
  rw [← Bool.not_eq_true, headerOk_iff]
  tauto

/-- The byte at offset `k` of the word `F` (R7). -/
theorem windowOfWord_getElem (f : FrameWord) (k : Nat) (h : k < 9) :
    (windowOfWord f)[k] = f.extractLsb' (8 * k) 8 := by
  interval_cases k <;> rfl

theorem checksumOk_iff (w : Window) : checksumOk w = true ↔ sum8 w = w[8] := by
  simp [checksumOk, read8, OFF_CSUM]

/-- The decoder's answer for a wire window, by the two checks. -/
theorem decodeFrame_cases (w : Window) :
    (headerOk w = false ∧ decodeFrame w = .error .invalidStartFrame) ∨
    (headerOk w = true ∧ checksumOk w = false ∧ decodeFrame w = .error .invalidChecksum) ∨
    (headerOk w = true ∧ checksumOk w = true ∧ decodeFrame w =
      .ok (.data (read16 w OFF_DIST) (read16 w OFF_STR) (read8 w OFF_ITIME) (read8 w OFF_RSVD) (read8 w OFF_CSUM))) := by
  unfold decodeFrame classify
  cases headerOk w <;> cases checksumOk w <;> simp

/-! ### Acceptance -/

theorem acceptsStart_iff (p : Phase) :
    p.acceptsStart = true ↔ p = .idle ∨ p = .parsed ∨ p = .failed := by
  cases p <;> decide

theorem acceptsStart_eq_not_busy (b : Block TErr) : b.ph.acceptsStart = !b.busy := by
  unfold Block.busy Phase.acceptsStart
  cases b.ph <;> rfl

theorem isAwaiting_iff (p : Phase) : p.isAwaiting = true ↔ p = .awaitingBytes := by
  cases p <;> decide

/-- An event under a guard answers one next state: the effect, or the unchanged state. -/
theorem onAccept_eq_next {s t : State} {a : Bool} {f : Block Config.ErrBits → Block Config.ErrBits} :
    s.onAccept a f = .next t ↔ (a = true ∧ t = { s with block := f s.block }) ∨ (a = false ∧ t = s) := by
  cases a <;> simp [State.onAccept, eq_comm]

theorem onAccept_not_fault {s : State} {a : Bool} {f : Block Config.ErrBits → Block Config.ErrBits} (r : Fault) :
    s.onAccept a f ≠ .fault r := by simp [State.onAccept]

theorem onAccept_not_refused {s : State} {a : Bool} {f : Block Config.ErrBits → Block Config.ErrBits} (r : Refusal) :
    s.onAccept a f ≠ .refused r := by simp [State.onAccept]

/-- An event that writes the buffer answers a next state where its effect has one, or where it is not
accepted. -/
theorem onAcceptWrite_eq_next {s t : State} {a : Bool} {f : Block Config.ErrBits → Except Fault (Block Config.ErrBits)} :
    s.onAcceptWrite a f = .next t ↔
      (a = true ∧ ∃ b, f s.block = .ok b ∧ t = { s with block := b }) ∨ (a = false ∧ t = s) := by
  cases a
  · simp [State.onAcceptWrite, eq_comm]
  · cases h : f s.block <;> simp [State.onAcceptWrite, h, eq_comm]

theorem onAcceptWrite_not_refused {s : State} {a : Bool} {f : Block Config.ErrBits → Except Fault (Block Config.ErrBits)} (r : Refusal) :
    s.onAcceptWrite a f ≠ .refused r := by
  cases a
  · simp [State.onAcceptWrite]
  · cases h : f s.block <;> simp [State.onAcceptWrite, h]

/-! ### Receiving bytes -/

/-- A byte received while there is room. -/
theorem receive_eq (b : Block TErr) (v : Byte) (h : b.cnt.val < 9) :
    b.receive v = .ok { b with
      buf := b.buf.set b.cnt.val v h
      cnt := ⟨b.cnt.val + 1, by omega⟩
      ph  := if b.cnt.val = 8 then .headerCheck else b.ph } := by
  simp only [Block.receive, Block.write8, Block.bumpCnt, h, dite_true, beq_iff_eq]
  split <;> simp

/-- A byte received with nine already stored meets an offset that does not exist. -/
theorem receive_full (b : Block TErr) (v : Byte) (h : ¬ b.cnt.val < 9) : b.receive v = .error .bufOffset := by
  simp [Block.receive, Block.write8, h]

/-- Bytes offered outside `AWAITING_BYTES` stay with the byte source. -/
theorem receiveAll_of_not_awaiting (b : Block TErr) (vs : List Byte) (h : b.ph.isAwaiting = false) :
    b.receiveAll vs = .ok b := by
  cases vs <;> simp [Block.receiveAll, h]

theorem receiveAll_cons (b : Block TErr) (v : Byte) (vs : List Byte) (h : b.ph.isAwaiting = true)
    (h9 : b.cnt.val < 9) :
    b.receiveAll (v :: vs) = Block.receiveAll { b with
      buf := b.buf.set b.cnt.val v h9
      cnt := ⟨b.cnt.val + 1, by omega⟩
      ph  := if b.cnt.val = 8 then .headerCheck else b.ph } vs := by
  rw [Block.receiveAll, if_pos h, receive_eq b v h9]

/-- Bytes received while there is room for all of them: each stands at its offset, in order, the
bytes outside them are unchanged, and the ninth moves the phase on. -/
theorem receiveAll_spec (vs : List Byte) : ∀ (b : Block TErr), b.ph = .awaitingBytes → b.cnt.val ≤ 8 →
    b.cnt.val + vs.length ≤ 9 →
    ∃ (buf : Window) (cnt : Fin 10), cnt.val = b.cnt.val + vs.length ∧
      (∀ (k : Nat) (h : k < 9), k < b.cnt.val → buf[k] = b.buf[k]) ∧
      (∀ (k : Nat) (h : k < vs.length) (h9 : b.cnt.val + k < 9), buf[b.cnt.val + k] = vs[k]) ∧
      (∀ (k : Nat) (h : k < 9), b.cnt.val + vs.length ≤ k → buf[k] = b.buf[k]) ∧
      b.receiveAll vs = .ok { b with
        buf := buf, cnt := cnt, ph := if b.cnt.val + vs.length = 9 then .headerCheck else .awaitingBytes } := by
  induction vs with
  | nil =>
    intro b hp h8 _
    refine ⟨b.buf, b.cnt, rfl, fun _ _ _ => rfl, fun k h => absurd h (Nat.not_lt_zero k), fun _ _ _ => rfl, ?_⟩
    have h9 : ¬ b.cnt.val + ([] : List Byte).length = 9 := by simp; omega
    rw [if_neg h9, ← hp]
    rfl
  | cons v vs ih =>
    intro b hp h8 hl
    simp only [List.length_cons] at hl
    have hr : b.cnt.val < 9 := by omega
    rw [receiveAll_cons b v vs (by rw [hp]; rfl) hr]
    by_cases hlast : b.cnt.val = 8
    · obtain rfl : vs = [] := List.length_eq_zero_iff.mp (by omega)
      refine ⟨b.buf.set b.cnt.val v hr, ⟨b.cnt.val + 1, by omega⟩, rfl, ?_, ?_, ?_, ?_⟩
      · intro k h hk
        exact Vector.getElem_set_ne _ _ (by omega)
      · intro k h h9
        obtain rfl : k = 0 := by simp at h; omega
        simp
      · intro k h hk
        simp at hk
        omega
      · simp [Block.receiveAll, hlast]
    · obtain ⟨buf, cnt, hc, hlow, hmid, hhigh, e⟩ := ih
        { b with buf := b.buf.set b.cnt.val v hr, cnt := ⟨b.cnt.val + 1, by omega⟩, ph := .awaitingBytes }
        rfl (by simp only; omega) (by simp only; omega)
      simp only at hc hlow hmid hhigh e
      refine ⟨buf, cnt, by simp only [List.length_cons]; omega, ?_, ?_, ?_, ?_⟩
      · intro k h hk
        rw [hlow k h (by omega), Vector.getElem_set_ne _ _ (by omega)]
      · intro k h h9
        cases k with
        | zero =>
          simp only [Nat.add_zero, List.getElem_cons_zero]
          rw [hlow _ hr (by omega), Vector.getElem_set_self]
        | succ k =>
          have hk : k < vs.length := by simpa using h
          have := hmid k hk (by omega)
          simp only [List.getElem_cons_succ]
          rw [← this]
          congr 1
          omega
      · intro k h hk
        simp only [List.length_cons] at hk
        rw [hhigh k h (by omega), Vector.getElem_set_ne _ _ (by omega)]
      · simp only [hlast, if_false, hp, List.length_cons]
        rw [e]
        have : (b.cnt.val + 1 + vs.length = 9) = (b.cnt.val + (vs.length + 1) = 9) := by
          apply propext; constructor <;> intro <;> omega
        simp only [this]

/-! ### Judging the window -/

/-- The two outcomes of `HDRSTEP`'s effect. -/
theorem judgeHeader_cases (b : Block TErr) :
    (headerOk b.buf = true ∧ b.judgeHeader = { b with ph := .checksumCheck }) ∨
    (headerOk b.buf = false ∧ b.judgeHeader = { b with ph := .failed, err := .invalidStartFrame }) := by
  unfold Block.judgeHeader Block.hdrOk
  cases headerOk b.buf
  · exact .inr ⟨rfl, rfl⟩
  · exact .inl ⟨rfl, rfl⟩

/-- The two outcomes of `CSUMSTEP`'s effect. -/
theorem judgeChecksum_cases (b : Block TErr) :
    (checksumOk b.buf = true ∧ b.judgeChecksum = { b with
        ph := .parsed, dist := read16 b.buf OFF_DIST, str := read16 b.buf OFF_STR, itime := read8 b.buf OFF_ITIME }) ∨
    (checksumOk b.buf = false ∧ b.judgeChecksum = { b with ph := .failed, err := .invalidChecksum }) := by
  unfold Block.judgeChecksum Block.csumOk
  cases checksumOk b.buf
  · exact .inr ⟨rfl, rfl⟩
  · exact .inl ⟨rfl, rfl⟩

/-- The internal steps run from `HEADER_CHECK` end in one of three terminal states. -/
theorem settle_cases (b : Block TErr) (h : b.ph = .headerCheck) :
    (headerOk b.buf = false ∧ b.settle = { b with ph := .failed, err := .invalidStartFrame }) ∨
    (headerOk b.buf = true ∧ checksumOk b.buf = false ∧
      b.settle = { b with ph := .failed, err := .invalidChecksum }) ∨
    (headerOk b.buf = true ∧ checksumOk b.buf = true ∧ b.settle = { b with
      ph := .parsed, dist := read16 b.buf OFF_DIST, str := read16 b.buf OFF_STR, itime := read8 b.buf OFF_ITIME }) := by
  unfold Block.settle
  rcases judgeHeader_cases b with ⟨hh, e⟩ | ⟨hh, e⟩
  · rcases judgeChecksum_cases { b with ph := .checksumCheck } with ⟨hc, e'⟩ | ⟨hc, e'⟩
    · exact .inr (.inr ⟨hh, hc, by simp [h, e, e']⟩)
    · exact .inr (.inl ⟨hh, hc, by simp [h, e, e']⟩)
  · exact .inl ⟨hh, by simp [h, e]⟩

/-! ### Offers -/

/-- No step is offered a wire frame whole (R9). -/
theorem offered_ne_frame {s : State} {v : Window} : s.offered ≠ some (.frame v) := by
  unfold State.offered
  split <;> simp

/-- A command offered is the head of the commands, on the caller's turn. -/
theorem offered_cmd {s : State} {c : BitVec 1} (h : s.offered = some (.cmd c)) :
    ∃ cs, s.env.cmd = c :: cs := by
  unfold State.offered at h
  split at h
  · cases h
  · cases h
  · cases hc : s.env.cmd with
    | nil => rw [hc] at h; cases h
    | cons x xs => rw [hc] at h; cases h; exact ⟨xs, rfl⟩
  · cases hr : s.env.rx <;> rw [hr] at h <;> cases h
  · cases h

/-- An RX word offered is the head of the RX words, on the byte source's turn. -/
theorem offered_rx {s : State} {x : RxWord} (h : s.offered = some (.rx x)) :
    ∃ rs, s.env.rx = x :: rs := by
  unfold State.offered at h
  split at h
  · cases h
  · cases h
  · cases hc : s.env.cmd <;> rw [hc] at h <;> cases h
  · cases hr : s.env.rx with
    | nil => rw [hr] at h; cases h
    | cons y ys => rw [hr] at h; cases h; exact ⟨ys, rfl⟩
  · cases h

/-- Nine RX words that hand over a window, with zero as the ignored payload. -/
theorem handOver_rxOfWindow (w : Window) : handOver (rxOfWindow w) w.toList := by
  refine ⟨by simp [rxOfWindow, Function.comp_def], ?_⟩
  simp [rxOfWindow]

end Sys2Proof.Machine
end

