-- ==== Sys2Proof/Laws/Step.lean ====
section
/-! SUPPORT. Laws/Step.lean: everything a step of the closed system can do, said once, and the induction over runs. -/

namespace Sys2Proof.Machine

/-- What an offered word can decode to: one of the steps of R9, never a pure function (D16) and never a
whole wire frame. -/
theorem offered_decode_cases {s : State} {w : ChanWord} {i : Instr} (ho : s.offered = some w)
    (hd : decode w = .ok i) :
    (∃ c, w = .cmd c ∧ i = decodeCmd c) ∨ (∃ x, w = .rx x ∧ i = decodeRx x) ∨
    (w = .phase 2 ∧ i = .hdrstep) ∨ (w = .phase 3 ∧ i = .csumstep) ∨ (w = .resetLine ∧ i = .reset) := by
  cases w with
  | frame v => exact absurd ho offered_ne_frame
  | cmd c => cases hd; exact .inl ⟨c, rfl, rfl⟩
  | rx x => cases hd; exact .inr (.inl ⟨x, rfl, rfl⟩)
  | phase c =>
    simp only [decode, decodePhase, beq_iff_eq] at hd
    split at hd
    · rename_i h; cases hd; exact .inr (.inr (.inl ⟨by rw [h], rfl⟩))
    · split at hd
      · rename_i h; cases hd; exact .inr (.inr (.inr (.inl ⟨by rw [h], rfl⟩)))
      · cases hd
  | resetLine => cases hd; exact .inr (.inr (.inr (.inr ⟨rfl, rfl⟩)))

theorem decodeCmd_cases (c : BitVec 1) :
    (c = 0 ∧ decodeCmd c = .decodeSp) ∨ (c = 1 ∧ decodeCmd c = .cancel) := by
  revert c
  decide

theorem decodeRx_cases (x : RxWord) :
    (x.kind = 0 ∧ decodeRx x = .rxbyte x.data) ∨ (x.kind ≠ 0 ∧ decodeRx x = .rxfail x.err) := by
  unfold decodeRx
  by_cases h : x.kind = 0
  · exact .inl ⟨h, by simp [h]⟩
  · exact .inr ⟨h, by simpa using h⟩

/-- The two shapes of a step: the block waits and the turn passes, or the offered word's instruction
runs. -/
theorem step_cases (s : State) :
    ((s.offered = none ∨ ∃ c, s.offered = some (.phase c)) ∧ step s = .next s.passTurn) ∨
    (∃ w i, s.offered = some w ∧ decode w = .ok i ∧ step s = exec i (s.take w)) := by
  cases ho : s.offered with
  | none => exact .inl ⟨.inl rfl, by simp [step, ho]⟩
  | some w =>
    cases hd : decode w with
    | ok i => exact .inr ⟨w, i, rfl, hd, by simp [step, ho, hd]⟩
    | error e =>
      cases w with
      | frame v => exact absurd ho offered_ne_frame
      | phase c => exact .inl ⟨.inr ⟨c, rfl⟩, by simp [step, ho, hd, State.take]⟩
      | cmd c => cases hd
      | rx v => cases hd
      | resetLine => cases hd

/-- A property every step keeps, and under which every step answers a next state, holds along every
run. -/
theorem run_of_step_keeps {P : State → Prop} (hstep : ∀ s, P s → ∃ t, step s = .next t ∧ P t)
    (k : Nat) (s : State) (hs : P s) : ∃ t, Sys2Proof.core.run k s = .next t ∧ P t := by
  induction k generalizing s with
  | zero => exact ⟨s, rfl, hs⟩
  | succ k ih =>
    obtain ⟨t, ht, hp⟩ := hstep s hs
    obtain ⟨u, hu, hq⟩ := ih t hp
    exact ⟨u, by simpa [Host.Core.run, Sys2Proof.core, ht] using hu, hq⟩

/-- One step, then the rest of the run. -/
theorem run_succ {s t : State} (k : Nat) (h : step s = .next t) :
    Sys2Proof.core.run (k + 1) s = Sys2Proof.core.run k t := by
  simp [Host.Core.run, Sys2Proof.core, h]

end Sys2Proof.Machine
end

