-- ==== Sys2Proof/Laws/Exec.lean ====
section
/-! SUPPORT. Laws/Exec.lean: everything an instruction can do when it answers a next state, said once (the rows of spec/41_frame_reader.md R69), and everything a whole window can do. -/

namespace Sys2Proof.Machine

variable {TErr : Type}

/-! ### The guards, met and not met -/

theorem isAwaiting_of_ne {p : Phase} (h : p ≠ .awaitingBytes) : p.isAwaiting = false := by
  rw [← Bool.not_eq_true, isAwaiting_iff]
  exact h

/-- An accepted byte, as the state it leaves. -/
theorem execRxbyte_eq (v : Byte) (s : State) (h : s.block.ph = .awaitingBytes) (hc : s.block.cnt.val < 9) :
    execRxbyte v s = .next { s with block := { s.block with
      buf := s.block.buf.set s.block.cnt.val v hc
      cnt := ⟨s.block.cnt.val + 1, by omega⟩
      ph  := if s.block.cnt.val = 8 then .headerCheck else .awaitingBytes } } := by
  simp only [execRxbyte, State.onAcceptWrite, h, Phase.isAwaiting, if_true]
  rw [receive_eq _ _ hc, h]

/-! ### What an atomic instruction can do -/

/-- The next states of the instructions but `DATA`: unchanged, a function's value given, or one row of
the transition table (R69). -/
theorem exec_cases {i : Instr} {s t : State} (ha : isAtomic i = true) (h : exec i s = .next t) :
    t = s ∨
    ((i = .chkhdr ∨ i = .chksum ∨ i = .parse) ∧ ∃ v, t = s.gives v) ∨
    ((i = .decodeSp ∨ i = .decode) ∧ s.block.ph.acceptsStart = true ∧
      t = { s with block := s.block.startCall }) ∨
    (i = .cancel ∧ s.block.ph = .awaitingBytes ∧ t = { s with block := s.block.abandon }) ∨
    (∃ (v : Byte) (hc : s.block.cnt.val < 9), i = .rxbyte v ∧ s.block.ph = .awaitingBytes ∧
      t = { s with block := { s.block with
        buf := s.block.buf.set s.block.cnt.val v hc
        cnt := ⟨s.block.cnt.val + 1, by omega⟩
        ph  := if s.block.cnt.val = 8 then .headerCheck else .awaitingBytes } }) ∨
    (∃ e, i = .rxfail e ∧ s.block.ph = .awaitingBytes ∧
      t = { s with block := s.block.fail (.readError e) }) ∨
    (i = .hdrstep ∧ s.block.ph = .headerCheck ∧ t = { s with block := s.block.judgeHeader }) ∨
    (i = .csumstep ∧ s.block.ph = .checksumCheck ∧ t = { s with block := s.block.judgeChecksum }) ∨
    (i = .reset ∧ t = { s with block := s.block.resetSequencer }) := by
  cases i with
  | data => cases ha
  | chkhdr => cases h; exact .inr (.inl ⟨.inl rfl, _, rfl⟩)
  | chksum => cases h; exact .inr (.inl ⟨.inr (.inl rfl), _, rfl⟩)
  | parse =>
    simp only [exec, execParse] at h
    split at h
    · cases h; exact .inr (.inl ⟨.inr (.inr rfl), _, rfl⟩)
    · cases h
  | decodeSp =>
    rcases onAccept_eq_next.1 h with ⟨a, e⟩ | ⟨_, e⟩
    · exact .inr (.inr (.inl ⟨.inl rfl, a, e⟩))
    · exact .inl e
  | decode =>
    rcases onAccept_eq_next.1 h with ⟨a, e⟩ | ⟨_, e⟩
    · exact .inr (.inr (.inl ⟨.inr rfl, a, e⟩))
    · exact .inl e
  | cancel =>
    rcases onAccept_eq_next.1 h with ⟨a, e⟩ | ⟨_, e⟩
    · exact .inr (.inr (.inr (.inl ⟨rfl, (isAwaiting_iff _).1 a, e⟩)))
    · exact .inl e
  | rxbyte v =>
    have h' : execRxbyte v s = .next t := h
    rcases onAcceptWrite_eq_next.1 h' with ⟨a, b, hb, e⟩ | ⟨_, e⟩
    · have hp := (isAwaiting_iff _).1 a
      by_cases hc : s.block.cnt.val < 9
      · rw [execRxbyte_eq v s hp hc] at h'
        cases h'
        exact .inr (.inr (.inr (.inr (.inl ⟨v, hc, rfl, hp, rfl⟩))))
      · rw [receive_full _ _ hc] at hb
        cases hb
    · exact .inl e
  | rxfail v =>
    have h' : execRxfail v s = .next t := h
    rcases onAccept_eq_next.1 h' with ⟨a, e⟩ | ⟨_, e⟩
    · exact .inr (.inr (.inr (.inr (.inr (.inl ⟨v, rfl, (isAwaiting_iff _).1 a, e⟩)))))
    · exact .inl e
  | hdrstep =>
    rcases onAccept_eq_next.1 h with ⟨a, e⟩ | ⟨_, e⟩
    · exact .inr (.inr (.inr (.inr (.inr (.inr (.inl ⟨rfl, by simpa using a, e⟩))))))
    · exact .inl e
  | csumstep =>
    rcases onAccept_eq_next.1 h with ⟨a, e⟩ | ⟨_, e⟩
    · exact .inr (.inr (.inr (.inr (.inr (.inr (.inr (.inl ⟨rfl, by simpa using a, e⟩)))))))
    · exact .inl e
  | reset => cases h; exact .inr (.inr (.inr (.inr (.inr (.inr (.inr (.inr ⟨rfl, rfl⟩)))))))

/-- `PARSE` alone is ever refused. -/
theorem exec_refused_cases {i : Instr} {s : State} {r : Refusal} (h : exec i s = .refused r) :
    i = .parse ∧ r = .parseUnvalidated := by
  cases i with
  | parse =>
    simp only [exec, execParse] at h
    split at h
    · cases h
    · cases h; exact ⟨rfl, rfl⟩
  | chkhdr => cases h
  | chksum => cases h
  | reset => cases h
  | decodeSp => exact absurd h (onAccept_not_refused r)
  | decode => exact absurd h (onAccept_not_refused r)
  | cancel => exact absurd h (onAccept_not_refused r)
  | rxfail v => exact absurd (show execRxfail v s = .refused r from h) (onAccept_not_refused r)
  | hdrstep => exact absurd h (onAccept_not_refused r)
  | csumstep => exact absurd h (onAccept_not_refused r)
  | rxbyte v => exact absurd (show execRxbyte v s = .refused r from h) (onAcceptWrite_not_refused r)
  | data d st it x c =>
    exact absurd (show execData d st it x c s = .refused r from h) (onAcceptWrite_not_refused r)

/-! ### What a whole window can do -/

theorem receiveAll_append (vs ws : List Byte) : ∀ b : Block TErr,
    b.receiveAll (vs ++ ws) = match b.receiveAll vs with
      | .ok b' => b'.receiveAll ws
      | .error f => .error f := by
  induction vs with
  | nil => intro b; rfl
  | cons v vs ih =>
    intro b
    simp only [List.cons_append, Block.receiveAll]
    cases hp : b.ph.isAwaiting with
    | false => simp [receiveAll_of_not_awaiting b ws hp]
    | true =>
      simp only [if_true]
      cases b.receive v with
      | ok b' => exact ih b'
      | error f => rfl

/-- A window handed over while there is room fills the buffer from offset `cnt` on and is judged; the
bytes for which there is no room are not looked at. -/
theorem receiveWindow_eq (b : Block TErr) (w : Window) (hp : b.ph = .awaitingBytes) (h8 : b.cnt.val ≤ 8) :
    ∃ buf : Window, (∀ (k : Nat) (h : k < 9), k < b.cnt.val → buf[k] = b.buf[k]) ∧
      (∀ (k : Nat) (h : b.cnt.val + k < 9), buf[b.cnt.val + k] = w[k]) ∧
      b.receiveWindow w = .ok (Block.settle { b with buf := buf, cnt := 9, ph := .headerCheck }) := by
  have hlen : w.toList.length = 9 := by simp
  have htake : (w.toList.take (9 - b.cnt.val)).length = 9 - b.cnt.val := by simp
  obtain ⟨buf, cnt, hc, hlow, hmid, _, e⟩ :=
    receiveAll_spec (w.toList.take (9 - b.cnt.val)) b hp h8 (by omega)
  refine ⟨buf, hlow, ?_, ?_⟩
  · intro k h
    rw [hmid k (by omega) h]
    simp
  · have hcnt : cnt = 9 := Fin.ext (by rw [hc, htake]; show b.cnt.val + (9 - b.cnt.val) = 9; omega)
    have hfull : b.cnt.val + (w.toList.take (9 - b.cnt.val)).length = 9 := by omega
    unfold Block.receiveWindow
    rw [← List.take_append_drop (9 - b.cnt.val) w.toList, receiveAll_append, e, hcnt, if_pos hfull]
    simp only
    rw [receiveAll_of_not_awaiting _ _ rfl]

/-- A window handed over at the start of a call is the buffer that is judged. -/
theorem receiveWindow_fresh (b : Block TErr) (w : Window) (hp : b.ph = .awaitingBytes) (h0 : b.cnt.val = 0) :
    b.receiveWindow w = .ok (Block.settle { b with buf := w, cnt := 9, ph := .headerCheck }) := by
  obtain ⟨buf, _, hmid, e⟩ := receiveWindow_eq b w hp (by omega)
  have hb : buf = w := by
    ext i hi
    have := hmid i (by omega)
    simp only [h0, Nat.zero_add] at this
    rw [this]
  rw [e, hb]

/-! ### A step of the closed system -/

/-- A step of R9 reads and writes the block and nothing else. -/
theorem exec_step_reads_block {i : Instr} {s t u : State} (hi : isStep i = true) (hu : u.block = s.block)
    (h : exec i u = .next t) :
    t = { u with block := t.block } ∧ exec i s = .next { s with block := t.block } := by
  have guarded : ∀ (p : Phase → Bool) (f : Block Config.ErrBits → Block Config.ErrBits),
      u.onAccept (p u.block.ph) f = .next t →
      t = { u with block := t.block } ∧ s.onAccept (p s.block.ph) f = .next { s with block := t.block } := by
    intro p f hn
    rcases onAccept_eq_next.1 hn with ⟨a, e⟩ | ⟨a, e⟩ <;> rw [hu] at a <;> subst e
    · exact ⟨rfl, by simp [State.onAccept, a, hu]⟩
    · exact ⟨rfl, by simp [State.onAccept, a, hu]⟩
  cases i with
  | data => cases hi
  | chkhdr => cases hi
  | chksum => cases hi
  | parse => cases hi
  | decodeSp => exact guarded Phase.acceptsStart _ h
  | decode => exact guarded Phase.acceptsStart _ h
  | cancel => exact guarded Phase.isAwaiting _ h
  | rxfail v => exact guarded Phase.isAwaiting (fun b => b.fail (.readError v)) h
  | hdrstep => exact guarded (· == .headerCheck) _ h
  | csumstep => exact guarded (· == .checksumCheck) _ h
  | reset => cases h; exact ⟨rfl, by simp [exec, execReset, hu]⟩
  | rxbyte v =>
    have h' : execRxbyte v u = .next t := h
    rcases onAcceptWrite_eq_next.1 h' with ⟨a, b, hb, e⟩ | ⟨a, e⟩ <;> rw [hu] at a <;> subst e
    · rw [hu] at hb
      exact ⟨rfl, by simp [exec, execRxbyte, State.onAcceptWrite, a, hb]⟩
    · exact ⟨rfl, by simp [exec, execRxbyte, State.onAcceptWrite, a, hu]⟩

/-- A step of R9 that the acceptance table leaves blank (R70) changes nothing. -/
theorem exec_of_not_accepted {i : Instr} {s : State} (hi : isStep i = true)
    (h : accepts i s.block.ph = false) : exec i s = .next s := by
  cases i with
  | data => cases hi
  | chkhdr => cases hi
  | chksum => cases hi
  | parse => cases hi
  | reset => cases h
  | decodeSp => exact onAccept_eq_next.2 (.inr ⟨h, rfl⟩)
  | decode => exact onAccept_eq_next.2 (.inr ⟨h, rfl⟩)
  | cancel => exact onAccept_eq_next.2 (.inr ⟨h, rfl⟩)
  | rxbyte v =>
    show execRxbyte v s = .next s
    exact onAcceptWrite_eq_next.2 (.inr ⟨h, rfl⟩)
  | rxfail e =>
    show execRxfail e s = .next s
    exact onAccept_eq_next.2 (.inr ⟨h, rfl⟩)
  | hdrstep => exact onAccept_eq_next.2 (.inr ⟨h, rfl⟩)
  | csumstep => exact onAccept_eq_next.2 (.inr ⟨h, rfl⟩)

theorem isStep_isAtomic {i : Instr} (h : isStep i = true) : isAtomic i = true := by
  cases i with
  | data => cases h
  | _ => rfl

/-- Every word a step is offered and can decode is a step of R9. -/
theorem offered_isStep {s : State} {w : ChanWord} {i : Instr} (ho : s.offered = some w)
    (hd : decode w = .ok i) : isStep i = true := by
  rcases offered_decode_cases ho hd with ⟨c, _, rfl⟩ | ⟨x, _, rfl⟩ | ⟨_, rfl⟩ | ⟨_, rfl⟩ | ⟨_, rfl⟩
  · rcases decodeCmd_cases c with ⟨_, e⟩ | ⟨_, e⟩ <;> rw [e] <;> rfl
  · rcases decodeRx_cases x with ⟨_, e⟩ | ⟨_, e⟩ <;> rw [e] <;> rfl
  all_goals rfl

/-- The block after a step of the closed system: untouched, or moved by one step of R9. -/
theorem step_block_cases {s t : State} (h : step s = .next t) :
    t = s.passTurn ∨
    ∃ w i, s.offered = some w ∧ decode w = .ok i ∧ isStep i = true ∧
      t = { s.take w with block := t.block } ∧ exec i s = .next { s with block := t.block } := by
  rcases step_cases s with ⟨_, e⟩ | ⟨w, i, ho, hd, e⟩
  · rw [e] at h; cases h; exact .inl rfl
  · rw [e] at h
    have hi := offered_isStep ho hd
    obtain ⟨e1, e2⟩ := exec_step_reads_block hi (State.take_block s w) h
    exact .inr ⟨w, i, ho, hd, hi, e1, e2⟩

/-- What a step does to the environment when a word is offered: the turn is over and the accepted word
is taken. -/
theorem step_env {s t : State} {w : ChanWord} (ho : s.offered = some w) (h : step s = .next t) :
    t.env = (s.take w).env := by
  rcases step_block_cases h with rfl | ⟨w', _, ho', _, _, e, _⟩
  · rcases step_cases s with ⟨hn | ⟨c, hc⟩, _⟩ | ⟨w', i, ho', hd, e⟩
    · rw [hn] at ho; cases ho
    · rw [hc] at ho; cases ho; rfl
    · rw [ho] at ho'
      cases ho'
      rw [e] at h
      obtain ⟨e', _⟩ := exec_step_reads_block (offered_isStep ho hd) (State.take_block s w) h
      rw [e']
  · rw [ho] at ho'
    cases ho'
    rw [e]

end Sys2Proof.Machine
end

