-- ==== Sys2Proof/Laws/PerInstr.lean ====
section
/-! SUPPORT. Laws/PerInstr.lean: one statement per instruction, as syntax: what a pseudo-instruction expands to is no pseudo-instruction, has the same word, and is as well formed (spec/30_encoding.md R53). -/

namespace Sys2Proof.Laws.Expansion

/-- The expansion of `i` is final, keeps the word of `i`, and keeps its well-formedness. -/
def Statement (i : Instr) : Prop :=
  expand (expand i) = expand i ∧ encode (expand i) = encode i ∧ (expand i).wellFormed = i.wellFormed

theorem data (d s : Half) (t r c : Byte) : Statement (.data d s t r c) := ⟨rfl, rfl, rfl⟩
theorem chkhdr : Statement .chkhdr := ⟨rfl, rfl, rfl⟩
theorem chksum : Statement .chksum := ⟨rfl, rfl, rfl⟩
theorem parse : Statement .parse := ⟨rfl, rfl, rfl⟩
theorem decodeSp : Statement .decodeSp := ⟨rfl, rfl, rfl⟩
theorem decode : Statement .decode := ⟨rfl, rfl, rfl⟩
theorem cancel : Statement .cancel := ⟨rfl, rfl, rfl⟩
theorem rxbyte (b : Byte) : Statement (.rxbyte b) := ⟨rfl, rfl, rfl⟩
theorem rxfail (e : Config.ErrBits) : Statement (.rxfail e) := ⟨rfl, rfl, rfl⟩
theorem hdrstep : Statement .hdrstep := ⟨rfl, rfl, rfl⟩
theorem csumstep : Statement .csumstep := ⟨rfl, rfl, rfl⟩
theorem reset : Statement .reset := ⟨rfl, rfl, rfl⟩

end Sys2Proof.Laws.Expansion
end

