-- ==== Sys2Proof/Tests/Slice0.lean ====
section
/-! SUPPORT. Tests/Slice0.lean: the model's own tests. Expected values are the spec's worked examples and vectors (spec/95_test_vectors.md: V, A, F, P; the examples of the rules), each named in its comment; the witnesses show that the hypotheses of the statements can be met. -/

namespace Sys2Proof.Tests

open Sys2Proof Sys2Proof.Machine

/-! ### Small states -/

/-- A block in phase `p` with `c` bytes counted and `w` in the buffer. -/
def block (p : Phase) (c : Fin 10) (w : Window) (e : ErrKind := .none) : Block Config.ErrBits where
  buf := w
  cnt := c
  ph := p
  dist := 0
  str := 0
  itime := 0
  err := e
  terr := 0

/-- A state with that block and nothing offered. -/
def st (p : Phase) (c : Fin 10) (w : Window) (e : ErrKind := .none) : State where
  block := block p c w e
  env := { cmd := [], rx := [], turns := [] }
  fnValue := none

/-- Whether `o` is a next state of which `p` holds. -/
def nextIs (o : Host.Outcome State Fault Refusal) (p : State → Bool) : Bool :=
  match o with
  | .next t => p t
  | .fault _ => false
  | .refused _ => false

/-- Whether `o` is a next state at all. -/
def completes (o : Host.Outcome State Fault Refusal) : Bool := nextIs o fun _ => true

/-- Whether `o` stops the machine with the named refusal. -/
def isParseRefusal (o : Host.Outcome State Fault Refusal) : Bool :=
  match o with
  | .refused r => r == .parseUnvalidated
  | .next _ => false
  | .fault _ => false

/-- V26 (S7 corrected, 90_conflicts.md C1). -/
def v26 : Window := #v[0x59, 0x59, 0x34, 0x12, 0x0A, 0x00, 0x05, 0x00, 0x07]
/-- V12, the source's example as printed. -/
def v12 : Window := #v[0x59, 0x59, 0x34, 0x12, 0x0A, 0x00, 0x05, 0x00, 0xE8]
/-- V17: first header byte wrong, checksum right. -/
def v17 : Window := #v[0x58, 0x59, 0x34, 0x12, 0x0A, 0x00, 0x05, 0x00, 0x06]
/-- V7: the sum is exactly 256. -/
def v7 : Window := #v[0x59, 0x59, 0x4E, 0x00, 0x00, 0x00, 0x00, 0x00, 0x00]
/-- `decode9` where the transport has one error value, so that its answers can be compared. -/
abbrev decoded (w : Window) : CallResult Unit := decode9 w
/-- An empty buffer. -/
def zeros : Window := #v[0, 0, 0, 0, 0, 0, 0, 0, 0]

/-! ### Smoke: the well-formedness check -/

/-- The one check, the checksum byte, refuses the source's example as printed (V12). -/
theorem test_wellFormed_refuses_wrong_checksum :
    (Instr.data 0x1234 0x000A 0x05 0x00 0xE8).wellFormed = false := by decide

theorem test_wellFormed_admits_right_checksum :
    (Instr.data 0x1234 0x000A 0x05 0x00 0x07).wellFormed = true := by decide

/-! ### Decoding, words written out from the spec's encodings -/

/-- R40, R41, V26: the nine bytes of the wire, and the same frame as the 72-bit word `F` (D13). -/
theorem test_decode_data :
    decode (.frame v26) = .ok (.data 0x1234 0x000A 0x05 0x00 0x07) ∧
    decode (.frame (windowOfWord 0x070005000A12345959#72)) = .ok (.data 0x1234 0x000A 0x05 0x00 0x07) := by
  decide

/-- V3: each field's own bytes, the reserved byte `0xA5` among them. -/
theorem test_decode_data_fields :
    decode (.frame #v[0x59, 0x59, 0xFF, 0x00, 0x00, 0x01, 0x07, 0xA5, 0x5E]) =
      .ok (.data 255 256 7 0xA5 0x5E) := by decide

/-- V17, V18, V21, V12: the illegal classes, the header first (R46). -/
theorem test_decode_rejects_illegal_windows :
    decode (.frame v17) = .error .invalidStartFrame ∧
    decode (.frame #v[0x59, 0x58, 0x34, 0x12, 0x0A, 0x00, 0x05, 0x00, 0x06]) = .error .invalidStartFrame ∧
    decode (.frame #v[0x58, 0x58, 0, 0, 0, 0, 0, 0, 0xFF]) = .error .invalidStartFrame ∧
    decode (.frame v12) = .error .invalidChecksum := by decide

/-- R49: `cmd` is one bit, 0 for `START`, 1 for `CANCEL`. -/
theorem test_decode_cmd : decode (.cmd 0#1) = .ok .decodeSp ∧ decode (.cmd 1#1) = .ok .cancel := ⟨rfl, rfl⟩

/-- R53: `DECODE` is another spelling of the same word. -/
theorem test_encode_decode_is_start : encode .decode = some (.cmd 0#1) ∧ encode .decodeSp = some (.cmd 0#1) :=
  ⟨rfl, rfl⟩

/-- R50: `rx_kind = 0` with `rx_data = 0x34`; the error payload is ignored. -/
theorem test_decode_rxbyte (e : Config.ErrBits) : decode (.rx ⟨0#1, 0x34, e⟩) = .ok (.rxbyte 0x34) := rfl

/-- R50: `rx_kind = 1` with `rx_err = e`; the data payload is ignored. -/
theorem test_decode_rxfail (b : Byte) (e : Config.ErrBits) : decode (.rx ⟨1#1, b, e⟩) = .ok (.rxfail e) := rfl

/-- R66, R67, R13: the codes of `ph` that select an internal step, and those that select none. -/
theorem test_decode_phase :
    decode (.phase 2#3) = .ok .hdrstep ∧ decode (.phase 3#3) = .ok .csumstep ∧
    decode (.phase 1#3) = .error .noInternalStep ∧ decode (.phase 6#3) = .error .noInternalStep := by decide

/-- R90: the reset line. -/
theorem test_decode_reset : decode .resetLine = .ok .reset := rfl

/-- "no encoding" (the table's rows of the pure functions). -/
theorem test_pure_functions_have_no_word :
    encode .chkhdr = none ∧ encode .chksum = none ∧ encode .parse = none := ⟨rfl, rfl, rfl⟩

/-- R39, R48: nine bytes are one frame, the rest is left over; eight are none. -/
theorem test_decodeBytes :
    decodeBytes [0x59, 0x59, 0x4E, 0, 0, 0, 0, 0, 0, 0x11] = .ok (.data 78 0 0 0 0, [0x11]) ∧
    decodeBytes [0x59, 0x59, 0x4E, 0, 0, 0, 0, 0] = .error .tooShort := by decide

/-- The table's rows as it numbers them: `DECODE_SP`, `CANCEL`, `HDRSTEP`, `CSUMSTEP`, a whole frame,
and the 16 header bits alone, whose zero checksum byte the row's constraint refuses. -/
theorem test_decodeTableWord :
    decodeTableWord 8 0 = some .decodeSp ∧ decodeTableWord 8 1 = some .cancel ∧
    decodeTableWord 8 2 = some .hdrstep ∧ decodeTableWord 8 3 = some .csumstep ∧
    decodeTableWord 72 0x070005000A12345959 = some (.data 0x1234 0x000A 0x05 0x00 0x07) ∧
    decodeTableWord 16 0x5959 = none ∧ decodeTableWord 0 0 = none := by decide

/-- An RX word as the table's bits: kind at bit 0, data above it. -/
theorem test_decodeTableWord_rx : decodeTableWord 16 0x68 = some (.rxbyte 0x34) := rfl

/-! ### The Frame Model on the spec's vectors -/

/-- V1, V2, V6, V7, V22: classes `DATA`. -/
theorem test_decode9_ok :
    decoded #v[0x59, 0x59, 0, 0, 0, 0, 0, 0, 0xB2] = .ok ⟨0, 0, 0⟩ ∧
    decoded #v[0x59, 0x59, 0xFF, 0xFF, 0xFF, 0xFF, 0xFF, 0xFF, 0xAC] = .ok ⟨65535, 65535, 255⟩ ∧
    decoded #v[0x59, 0x59, 0x00, 0x80, 0x01, 0x00, 0x80, 0x00, 0xB3] = .ok ⟨32768, 1, 128⟩ ∧
    decoded v7 = .ok ⟨78, 0, 0⟩ ∧
    decoded #v[0x59, 0x59, 0x75, 0x00, 0x00, 0x00, 0xD9, 0x59, 0x59] = .ok ⟨117, 0, 217⟩ := by decide

/-- V13, V15, V19, V20, V24: the illegal classes. -/
theorem test_decode9_err :
    decoded #v[0x59, 0x59, 0x4E, 0, 0, 0, 0, 0, 0xFF] = .err .invalidChecksum ∧
    decoded #v[0x59, 0x59, 0x1E, 0x00, 0xE8, 0x03, 0x07, 0x01, 0xC2] = .err .invalidChecksum ∧
    decoded #v[0xD9, 0x59, 0, 0, 0, 0, 0, 0, 0x32] = .err .invalidStartFrame ∧
    decoded zeros = .err .invalidStartFrame ∧
    decoded #v[0xFF, 0xFF, 0xFF, 0xFF, 0xFF, 0xFF, 0xFF, 0xFF, 0xFF] = .err .invalidStartFrame :=
  ⟨rfl, rfl, rfl, rfl, rfl⟩

/-- A1, A3, A4, A6, A7: byte order and no sign. -/
theorem test_le16 : le16 0x34 0x12 = 0x1234 ∧ le16 0xFF 0x00 = 255 ∧ le16 0x00 0x01 = 256 ∧
    le16 0x00 0x80 = 32768 ∧ le16 0x12 0x34 = 13330 := by decide

/-- A8, A10, A11: wrapping sums. -/
theorem test_sum8 : sum8 v26 = 0x07 ∧ sum8 #v[0xFF, 0xFF, 0xFF, 0xFF, 0xFF, 0xFF, 0xFF, 0xFF, 0] = 0xF8 ∧
    sum8 #v[0x80, 0x80, 0, 0, 0, 0, 0, 0, 0] = 0 := by decide

/-! ### One step of each instruction -/

/-- V20 (R55 (f)): all zeros give `hdr_ok = false`, `csum_ok = true`. -/
theorem test_chkhdr_false : nextIs (exec .chkhdr (st .headerCheck 9 zeros)) (fun t => t.fnValue == some (.hdrOk false)) = true := by
  decide
theorem test_chkhdr_true : nextIs (exec .chkhdr (st .headerCheck 9 v26)) (fun t => t.fnValue == some (.hdrOk true)) = true := by
  decide
theorem test_chksum_zeros : nextIs (exec .chksum (st .checksumCheck 9 zeros)) (fun t => t.fnValue == some (.csumOk true)) = true := by
  decide
theorem test_chksum_wrong : nextIs (exec .chksum (st .checksumCheck 9 v12)) (fun t => t.fnValue == some (.csumOk false)) = true := by
  decide
theorem test_parse : nextIs (exec .parse (st .checksumCheck 9 v26)) (fun t => t.fnValue == some (.frame ⟨4660, 10, 5⟩)) = true := by
  decide
/-- U1. -/
theorem test_parse_unvalidated : isParseRefusal (exec .parse (st .checksumCheck 9 v12)) = true := by decide

/-- F1, F3. -/
theorem test_decodeSp :
    nextIs (exec .decodeSp (st .failed 9 v12 .invalidChecksum))
      (fun t => t.block.ph == .awaitingBytes && t.block.cnt == 0 && t.block.err == .none) = true := by decide
/-- F4: no step while busy. -/
theorem test_decodeSp_busy :
    nextIs (exec .decodeSp (st .awaitingBytes 3 v12)) (fun t => t.block.ph == .awaitingBytes && t.block.cnt == 3) = true := by
  decide
/-- F2. -/
theorem test_decode :
    nextIs (exec .decode (st .parsed 9 v26))
      (fun t => t.block.ph == .awaitingBytes && t.block.cnt == 0 && t.block.result.isNone) = true := by decide
/-- F23. -/
theorem test_cancel :
    nextIs (exec .cancel (st .awaitingBytes 2 v26)) (fun t => t.block.ph == .idle && t.block.cnt == 2) = true := by decide
/-- F26: no step in a phase that does not wait. -/
theorem test_cancel_headerCheck :
    nextIs (exec .cancel (st .headerCheck 9 v26)) (fun t => t.block.ph == .headerCheck) = true := by decide
/-- F8: no early rejection. -/
theorem test_rxbyte_first :
    nextIs (exec (.rxbyte 0x00) (st .awaitingBytes 0 v26))
      (fun t => t.block.buf[0] == 0 && t.block.buf[1] == 0x59 && t.block.cnt == 1 && t.block.ph == .awaitingBytes) = true := by
  decide
/-- F10. -/
theorem test_rxbyte_ninth :
    nextIs (exec (.rxbyte 0x07) (st .awaitingBytes 8 v12))
      (fun t => t.block.buf[8] == 0x07 && t.block.buf[7] == 0 && t.block.cnt == 9 && t.block.ph == .headerCheck) = true := by
  decide
/-- F14: the transport error is carried unchanged. -/
theorem test_rxfail (e : Config.ErrBits) :
    ∃ t, exec (.rxfail e) (st .awaitingBytes 8 v26) = .next t ∧ t.block.ph = .failed ∧ t.block.cnt = 8 ∧
      t.block.result = some (.err (.readError e)) := ⟨_, rfl, rfl, rfl, rfl⟩
/-- F15. -/
theorem test_hdrstep_pass : nextIs (exec .hdrstep (st .headerCheck 9 v26)) (fun t => t.block.ph == .checksumCheck) = true := by
  decide
/-- F16. -/
theorem test_hdrstep_fail :
    nextIs (exec .hdrstep (st .headerCheck 9 v17)) (fun t => t.block.ph == .failed && t.block.err == .invalidStartFrame) = true := by
  decide
/-- F18. -/
theorem test_csumstep_pass :
    nextIs (exec .csumstep (st .checksumCheck 9 v26))
      (fun t => t.block.ph == .parsed && t.block.dist == 4660 && t.block.str == 10 && t.block.itime == 5) = true := by decide
/-- F19: the result registers are untouched. -/
theorem test_csumstep_fail :
    nextIs (exec .csumstep (st .checksumCheck 9 v12))
      (fun t => t.block.ph == .failed && t.block.err == .invalidChecksum && t.block.dist == 0) = true := by decide
/-- F27 (R90's example). -/
theorem test_reset :
    nextIs (exec .reset (st .failed 3 v26 .readError))
      (fun t => t.block.ph == .idle && t.block.cnt == 0 && t.block.err == .none && t.block.buf[0] == 0x59) = true := by decide
/-- V26 met at the start of a call. -/
theorem test_data :
    nextIs (exec (.data 0x1234 0x000A 0x05 0x00 0x07) (st .awaitingBytes 0 zeros))
      (fun t => t.block.ph == .parsed && t.block.dist == 4660 && t.block.str == 10 && t.block.cnt == 9) = true := by decide
/-- The effect of a frame met two bytes into a call (W2's shape): its first seven bytes complete the window, which
is judged as it falls (R30, R73). -/
theorem test_data_misaligned :
    nextIs (exec (.data 0x1234 0x000A 0x05 0x00 0x07) (st .awaitingBytes 2 zeros))
      (fun t => t.block.ph == .failed && t.block.err == .invalidStartFrame && t.block.buf[2] == 0x59 && t.block.buf[8] == 0x05) = true := by
  decide

/-! ### One step of the closed system -/

/-- Right after reset, the placed commands and the placed phase run at the next step. -/
theorem test_step_runs_placed_word :
    nextIs (step (State.reset.withFetchWord 8 0)) (fun t => t.block.ph == .awaitingBytes && t.env.cmd == []) = true ∧
    nextIs (step (State.reset.withFetchWord 8 2)) (fun t => t.block.ph == .failed && t.block.err == .invalidStartFrame) = true := by
  decide

/-- P3, step 8: a byte offered in `FAILED` is not consumed. -/
theorem test_step_byte_not_consumed (e : Config.ErrBits) :
    ∃ t, step { st .failed 3 v26 .readError with env := { cmd := [], rx := [⟨0, 0x12, e⟩], turns := [.source] } } = .next t ∧
      t.block.ph = .failed ∧ t.env.rx = [⟨0, 0x12, e⟩] := ⟨_, rfl, rfl, rfl⟩

/-! ### Witnesses: the hypotheses of the statements can be met -/

/-- The invariant holds in a waiting block. -/
theorem inv_awaiting : (block .awaitingBytes 0 zeros).Inv := by constructor <;> decide
/-- The invariant holds where the checksum is about to be judged. -/
theorem inv_checking : (block .checksumCheck 9 v26).Inv := by constructor <;> decide

theorem witness_ResultReadsByPhase :
    (block .parsed 9 v26).ph = .parsed ∧ (block .failed 9 v17 .invalidStartFrame).err = .invalidStartFrame ∧
    (block .failed 9 v12 .invalidChecksum).err = .invalidChecksum ∧ (block .failed 8 v12 .readError).err = .readError ∧
    (block .idle 0 v12).done = false := by decide

/-- The bytes of V7 in another order, and V7 itself, whose sum is 256. -/
theorem witness_WrappingSumIsTruncatedSum :
    ([0, 0x4E, 0x59, 0x59, 0, 0, 0, 0] : List Byte).Perm (v7.toList.take 8) ∧ exactSum v7 = 256 := by decide

theorem witness_HeaderCheckIsOnBothBytes : v26[0] = v7[0] ∧ v26[1] = v7[1] ∧ v26 ≠ v7 := by decide

theorem witness_ChecksumCheckWraps : exactSum v7 = 256 ∧ v7[0] = 0x59 ∧ v7[1] = 0x59 := by decide

theorem witness_ParseGivesFields :
    (st .checksumCheck 9 v7).block.buf[0] = 0x59 ∧ (st .checksumCheck 9 v7).block.buf[1] = 0x59 ∧
    exactSum (st .checksumCheck 9 v7).block.buf % 256 = (st .checksumCheck 9 v7).block.buf[8].toNat := by decide

theorem witness_ParseUnvalidatedIsRefused :
    v17[0] ≠ 0x59 ∧ (#v[0x59, 0x58, 0, 0, 0, 0, 0, 0, 0] : Window)[1] ≠ 0x59 ∧ exactSum v12 % 256 ≠ v12[8].toNat := by decide

theorem witness_PureFunctionsReadOnlyBuf :
    (st .idle 0 v26).block.buf = (st .parsed 9 v26).block.buf ∧ completes (exec .parse (st .idle 0 v26)) = true ∧
    isParseRefusal (exec .parse (st .idle 0 v12)) = true := ⟨rfl, rfl, rfl⟩

theorem witness_DecodeOfWindowByClass :
    (v7[0] = 0x59 ∧ v7[1] = 0x59 ∧ exactSum v7 % 256 = v7[8].toNat) ∧ v17[0] ≠ 0x59 ∧
    (#v[0x59, 0x58, 0, 0, 0, 0, 0, 0, 0] : Window)[1] ≠ 0x59 ∧
    (v12[0] = 0x59 ∧ v12[1] = 0x59 ∧ exactSum v12 % 256 ≠ v12[8].toNat) ∧
    (v7[7] = 0 ∧ decoded v7 = .ok ⟨78, 0, 0⟩) := by decide

theorem witness_ReservedByteIsOnlySummed : (0xE8 : Byte) ≠ 0x07 := by decide

theorem witness_DecodeOfEncode :
    (Instr.data 0xFFFF 0xFFFF 0xFF 0xFF 0xAC).wellFormed = true ∧
    encode (.data 0xFFFF 0xFFFF 0xFF 0xFF 0xAC) =
      some (.frame #v[0x59, 0x59, 0xFF, 0xFF, 0xFF, 0xFF, 0xFF, 0xFF, 0xAC]) := ⟨by decide, rfl⟩

theorem witness_EncodeOfDecodedFrame : decode (.frame v7) = .ok (.data 78 0 0 0 0) := by decide

theorem witness_StartBeginsCall :
    (st .idle 0 zeros).block.ph = .idle ∧ (st .parsed 9 v26).block.ph = .parsed ∧
    (st .failed 9 v12 .invalidChecksum).block.ph = .failed ∧ (st .headerCheck 9 v26).block.busy = true := ⟨rfl, rfl, rfl, rfl⟩

theorem witness_RxbyteStoresAtCnt :
    (st .awaitingBytes 0 zeros).block.ph = .awaitingBytes ∧ (st .awaitingBytes 0 zeros).block.cnt.val ≤ 8 ∧
    (st .awaitingBytes 8 zeros).block.cnt.val ≤ 8 ∧ (st .headerCheck 9 zeros).block.ph ≠ .awaitingBytes := by decide

/-- The clause about the byte source: one byte held, its turn next. -/
theorem witness_RxbyteStoresAtCnt_consumed :
    ∃ s : State, s.block.ph = .awaitingBytes ∧ s.block.cnt.val = 8 ∧ s.env.rx = ⟨0, 0x07, 0⟩ :: [] ∧ s.env.turns = .source :: [] :=
  ⟨{ st .awaitingBytes 8 zeros with env := { cmd := [], rx := [⟨0, 0x07, 0⟩], turns := [.source] } }, rfl, rfl, rfl, rfl⟩

/-- The clause about a byte offered where none is accepted. -/
theorem witness_RxbyteStoresAtCnt_kept :
    ∃ s : State, s.block.ph ≠ .awaitingBytes ∧ s.env.rx = ⟨0, 0x07, 0⟩ :: [] ∧ s.env.turns = .source :: [] :=
  ⟨{ st .headerCheck 9 zeros with env := { cmd := [], rx := [⟨0, 0x07, 0⟩], turns := [.source] } }, by decide, rfl, rfl⟩

theorem witness_NoNinthOffset :
    (st .awaitingBytes 9 zeros).block.ph = .awaitingBytes ∧ (st .awaitingBytes 9 zeros).block.cnt.val = 9 := ⟨rfl, rfl⟩

theorem witness_RxfailRaisesReadError :
    (st .awaitingBytes 0 zeros).block.ph = .awaitingBytes ∧ (st .awaitingBytes 8 zeros).block.ph = .awaitingBytes ∧
    (st .idle 0 zeros).block.ph ≠ .awaitingBytes := by decide

/-- The clause about a failure offered where none is accepted (R65 (b): after nine bytes). -/
theorem witness_RxfailRaisesReadError_kept :
    ∃ s : State, s.block.ph ≠ .awaitingBytes ∧ s.env.rx = ⟨1, 0, 0⟩ :: [] ∧ s.env.turns = .source :: [] :=
  ⟨{ st .headerCheck 9 zeros with env := { cmd := [], rx := [⟨1, 0, 0⟩], turns := [.source] } }, by decide, rfl, rfl⟩

/-- The clause about the consumed failure: one word held, its turn next. -/
theorem witness_RxfailRaisesReadError_consumed :
    ∃ s : State, s.block.ph = .awaitingBytes ∧ s.block.cnt.val = 8 ∧ s.env.rx = ⟨1, 0x07, 0⟩ :: [] ∧ s.env.turns = .source :: [] :=
  ⟨{ st .awaitingBytes 8 zeros with env := { cmd := [], rx := [⟨1, 0x07, 0⟩], turns := [.source] } }, rfl, rfl, rfl, rfl⟩

theorem witness_HdrstepJudgesHeader :
    (st .headerCheck 9 v26).env.turns = [] ∧
    (st .headerCheck 9 v26).block.ph = .headerCheck ∧ v26[0] = 0x59 ∧ v26[1] = 0x59 ∧ v17[0] ≠ 0x59 ∧
    isChannelEvent .cancel = true ∧ (st .checksumCheck 9 v26).block.ph ≠ .headerCheck := by decide

theorem witness_CsumstepJudgesChecksum :
    (st .checksumCheck 9 v7).env.turns = [] ∧
    (st .checksumCheck 9 v7).block.ph = .checksumCheck ∧ exactSum v7 % 256 = v7[8].toNat ∧
    exactSum v12 % 256 ≠ v12[8].toNat ∧ (st .headerCheck 9 v7).block.ph ≠ .checksumCheck := by decide

theorem witness_CancelAbandonsRead :
    (st .awaitingBytes 0 zeros).block.ph = .awaitingBytes ∧ (st .parsed 9 v26).block.ph ≠ .awaitingBytes := by decide

/-- Reset asserted while a command and a byte are offered too. -/
theorem witness_ResetAcceptedEverywhere :
    ∃ s : State, s.env.turns = .reset :: [.caller, .source] ∧ s.env.cmd = [1] ∧ s.env.rx = [⟨0, 0x59, 0⟩] :=
  ⟨{ st .awaitingBytes 3 v26 with env := { cmd := [1], rx := [⟨0, 0x59, 0⟩], turns := [.reset, .caller, .source] } }, rfl, rfl, rfl⟩

theorem witness_BlankInAcceptanceTableWaits :
    (st .awaitingBytes 3 zeros).block.busy = true ∧ (st .idle 0 zeros).block.ph ≠ .awaitingBytes ∧
    (st .idle 0 zeros).block.ph ≠ .headerCheck ∧ (st .idle 0 zeros).block.ph ≠ .checksumCheck := by decide

theorem witness_DataFrameIsParsed :
    (st .awaitingBytes 0 v17).block.ph = .awaitingBytes ∧ (st .awaitingBytes 0 v17).block.cnt.val = 0 ∧
    (Instr.data 0x1234 0x000A 0x05 0x00 0x07).wellFormed = true ∧
    (Instr.data 0x1234 0x000A 0x05 0x00 0xE8).wellFormed = false := by decide

theorem witness_DataWithWrongChecksumFails :
    (st .awaitingBytes 0 v26).block.ph = .awaitingBytes ∧ (st .awaitingBytes 0 v26).block.cnt.val = 0 ∧
    (Instr.data 0xFFFF 0xFFFF 0xFF 0xFF 0xAD).wellFormed = false := by decide

theorem witness_DataIsItsSteps :
    (st .awaitingBytes 0 zeros).block.ph = .awaitingBytes ∧ (st .awaitingBytes 9 zeros).block.ph = .awaitingBytes := ⟨rfl, rfl⟩

/-- The window `w` handed over with nonzero payloads of the other kind. -/
def noisy (w : Window) : List RxWord := w.toList.map fun b => { kind := 0, data := b, err := BitVec.ofNat Config.EW 1 }

theorem handOver_noisy (w : Window) : handOver (noisy w) w.toList := by
  refine ⟨by simp [noisy, Function.comp_def], ?_⟩
  simp [noisy]

/-- A window of each illegal class handed over at the start of a call. -/
theorem witness_IllegalWindowFailsTheCall :
    ∃ s t : State, s.block.ph = .awaitingBytes ∧ s.block.cnt.val = 0 ∧ handOver (noisy v17) v17.toList ∧
      s.env.rx = noisy v17 ++ [] ∧ s.env.turns = frameTurns ++ [] ∧ classify v17 ≠ .data ∧
      t.block.ph = .awaitingBytes ∧ t.block.cnt.val = 0 ∧ handOver (noisy v12) v12.toList ∧
      t.env.rx = noisy v12 ++ [] ∧ t.env.turns = frameTurns ++ [] ∧ classify v12 ≠ .data :=
  ⟨{ st .awaitingBytes 0 zeros with env := { cmd := [], rx := noisy v17, turns := frameTurns } },
   { st .awaitingBytes 0 zeros with env := { cmd := [], rx := noisy v12, turns := frameTurns } },
   rfl, rfl, handOver_noisy _, by simp, rfl, by decide, rfl, rfl, handOver_noisy _, by simp, rfl, by decide⟩

/-- A legal window handed over at the start of a call, and one met with eight bytes stored. -/
theorem witness_FrameRunsByteByByte :
    ∃ s t : State, s.block.ph = .awaitingBytes ∧ s.block.cnt.val = 0 ∧ handOver (noisy v26) v26.toList ∧
      s.env.rx = noisy v26 ++ [] ∧ s.env.turns = frameTurns ++ [] ∧ v26 = frameBytes 0x1234 0x000A 0x05 0x00 0x07 ∧
      t.block.ph = .awaitingBytes ∧ t.block.cnt.val = 8 ∧ t.env.rx = noisy v26 ++ [] ∧ t.env.turns = frameTurns ++ [] :=
  ⟨{ st .awaitingBytes 0 zeros with env := { cmd := [], rx := noisy v26, turns := frameTurns } },
   { st .awaitingBytes 8 zeros with env := { cmd := [], rx := noisy v26, turns := frameTurns } },
   rfl, rfl, handOver_noisy _, by simp, rfl, by decide, rfl, rfl, by simp, rfl⟩

theorem witness_TransitionsAreTheTable :
    ∃ t, isAtomic .hdrstep = true ∧ exec .hdrstep (st .headerCheck 9 v26) = .next t ∧
      t.block.ph ≠ (st .headerCheck 9 v26).block.ph := ⟨_, rfl, rfl, by decide⟩

theorem witness_ErrorEntryWritesOnlyTheCause :
    ∃ t, isAtomic .csumstep = true ∧ exec .csumstep (st .checksumCheck 9 v12) = .next t ∧
      (st .checksumCheck 9 v12).block.ph ≠ .failed ∧ t.block.ph = .failed := ⟨_, rfl, rfl, by decide, rfl⟩

/-- Each of the three errors is raised somewhere. -/
theorem witness_EachErrorHasOneRaiser :
    (∃ t, exec .hdrstep (st .headerCheck 9 v17) = .next t ∧ t.block.ph = .failed ∧ t.block.err = .invalidStartFrame) ∧
    (∃ t, exec .csumstep (st .checksumCheck 9 v12) = .next t ∧ t.block.ph = .failed ∧ t.block.err = .invalidChecksum) ∧
    (∃ t, exec (.rxfail 0) (st .awaitingBytes 0 zeros) = .next t ∧ t.block.ph = .failed ∧ t.block.err = .readError) :=
  ⟨⟨_, rfl, rfl, rfl⟩, ⟨_, rfl, rfl, rfl⟩, ⟨_, rfl, rfl, rfl⟩⟩

theorem witness_BufferIsWrittenOnlyByBytes :
    ∃ t, isAtomic (.rxbyte 0x59) = true ∧ exec (.rxbyte 0x59) (st .awaitingBytes 8 zeros) = .next t ∧
      t.block.buf[8] ≠ (st .awaitingBytes 8 zeros).block.buf[8] := ⟨_, rfl, rfl, by decide⟩

theorem witness_FrameRegistersWrittenOnlyOnPass :
    ∃ t, (st .checksumCheck 9 v26).block.Inv ∧ exec .csumstep (st .checksumCheck 9 v26) = .next t ∧
      t.block.dist ≠ (st .checksumCheck 9 v26).block.dist := ⟨_, inv_checking, rfl, by decide⟩

/-- Whatever the width, if two error values differ, an `RXFAIL` with one changes a `terr` that holds
the other; with one value only (`EW = 0`) the register cannot change. -/
theorem witness_TransportErrorWrittenOnlyByRxfail (e e' : Config.ErrBits) (h : e ≠ e') :
    ∃ s t : State, exec (.rxfail e) s = .next t ∧ t.block.terr ≠ s.block.terr :=
  ⟨{ st .awaitingBytes 0 zeros with block := { block .awaitingBytes 0 zeros with terr := e' } }, _, rfl, h⟩

theorem witness_FailedIsLeftOnlyByStartOrReset :
    ∃ s t : State, s.block.ph = .failed ∧ step s = .next t ∧ t.block.ph = .awaitingBytes :=
  ⟨{ st .failed 9 v12 .invalidChecksum with env := { cmd := [0], rx := [], turns := [.caller] } }, _, rfl, rfl, rfl⟩

theorem witness_StepRunsDecodedInstruction :
    (State.reset.withFetchWord 8 1).offered = some (.cmd 1) ∧ decode (.cmd 1) = .ok .cancel := ⟨rfl, rfl⟩

theorem witness_StepIsAtMostOneEvent :
    ∃ s t : State, step s = .next t ∧ s.env.rx = [⟨0, 0x59, 0⟩, ⟨0, 0x58, 0⟩] ∧ t.env.rx = [⟨0, 0x58, 0⟩] ∧ t.block.cnt.val = 1 :=
  ⟨{ st .awaitingBytes 0 zeros with env := { cmd := [], rx := [⟨0, 0x59, 0⟩, ⟨0, 0x58, 0⟩], turns := [.source] } }, _, rfl, rfl, rfl, rfl⟩

theorem witness_PlacedWordIsOffered :
    (∃ c, tableWord 8 3 = some c) ∧ (∃ c, tableWord 8 1 = some c) ∧ (∃ c, tableWord 16 511 = some c) ∧
    (∃ v, tableWord 16 512 = some (.frame v)) := ⟨⟨_, rfl⟩, ⟨_, rfl⟩, ⟨_, rfl⟩, ⟨_, rfl⟩⟩

/-- A byte and both commands, each on its turn, accepted. -/
theorem witness_OnlyAcceptedOffersAreConsumed :
    (∃ s t : State, step s = .next t ∧ s.env.rx = ⟨0, 0x59, 0⟩ :: [] ∧ s.env.turns = .source :: [] ∧ s.block.ph = .awaitingBytes) ∧
    (∃ s t : State, step s = .next t ∧ s.env.cmd = 0 :: [] ∧ s.env.turns = .caller :: [] ∧ s.block.busy = false) ∧
    (∃ s t : State, step s = .next t ∧ s.env.cmd = 1 :: [] ∧ s.env.turns = .caller :: [] ∧ s.block.ph = .awaitingBytes) :=
  ⟨⟨{ st .awaitingBytes 0 zeros with env := { cmd := [], rx := [⟨0, 0x59, 0⟩], turns := [.source] } }, _, rfl, rfl, rfl, rfl⟩,
   ⟨{ st .idle 0 zeros with env := { cmd := [0], rx := [], turns := [.caller] } }, _, rfl, rfl, rfl, rfl⟩,
   ⟨{ st .awaitingBytes 0 zeros with env := { cmd := [1], rx := [], turns := [.caller] } }, _, rfl, rfl, rfl, rfl⟩⟩

/-- Where nobody offers anything: no turn left, a turn of the block, a reset. -/
theorem witness_OnlyAcceptedOffersAreConsumed_nothing :
    (∃ s t : State, step s = .next t ∧ s.env.turns = [] ∧ s.env.rx ≠ []) ∧
    (∃ s t : State, step s = .next t ∧ s.env.turns = .block :: [] ∧ s.env.rx ≠ []) ∧
    (∃ s t : State, step s = .next t ∧ s.env.turns = .reset :: [] ∧ s.env.rx ≠ []) ∧
    (∃ s t : State, step s = .next t ∧ s.env.turns = .source :: [] ∧ s.env.rx = []) ∧
    (∃ s t : State, step s = .next t ∧ s.env.turns = .caller :: [] ∧ s.env.cmd = []) :=
  ⟨⟨{ st .headerCheck 9 zeros with env := { cmd := [], rx := [⟨0, 0x59, 0⟩], turns := [] } }, _, rfl, rfl, by simp⟩,
   ⟨{ st .headerCheck 9 zeros with env := { cmd := [], rx := [⟨0, 0x59, 0⟩], turns := [.block] } }, _, rfl, rfl, by simp⟩,
   ⟨{ st .awaitingBytes 3 zeros with env := { cmd := [], rx := [⟨0, 0x59, 0⟩], turns := [.reset] } }, _, rfl, rfl, by simp⟩,
   ⟨{ st .awaitingBytes 3 zeros with env := { cmd := [], rx := [], turns := [.source] } }, _, rfl, rfl, rfl⟩,
   ⟨{ st .awaitingBytes 3 zeros with env := { cmd := [], rx := [], turns := [.caller] } }, _, rfl, rfl, rfl⟩⟩

/-- Both orders, at the two ends of the count. -/
theorem witness_CancelAndByteInEitherOrder :
    ∃ s t : State, s.block.ph = .awaitingBytes ∧ s.block.cnt.val = 8 ∧ s.env.cmd = 1 :: [] ∧ s.env.rx = ⟨0, 0x59, 0⟩ :: [] ∧
      s.env.turns = .source :: .caller :: [] ∧
      t.block.ph = .awaitingBytes ∧ t.block.cnt.val = 0 ∧ t.env.cmd = 1 :: [] ∧ t.env.rx = ⟨0, 0x59, 0⟩ :: [] ∧
      t.env.turns = .caller :: .source :: [] :=
  ⟨{ st .awaitingBytes 8 zeros with env := { cmd := [1], rx := [⟨0, 0x59, 0⟩], turns := [.source, .caller] } },
   { st .awaitingBytes 0 zeros with env := { cmd := [1], rx := [⟨0, 0x59, 0⟩], turns := [.caller, .source] } },
   rfl, rfl, rfl, rfl, rfl, rfl, rfl, rfl, rfl, rfl⟩

theorem witness_WaitsWithoutBound :
    (st .awaitingBytes 3 v26).block.ph = .awaitingBytes ∧ (st .awaitingBytes 3 v26).env.turns = [] := ⟨rfl, rfl⟩

theorem witness_StepKeepsInvariant :
    ∃ t, (st .checksumCheck 9 v26).block.Inv ∧ step (st .checksumCheck 9 v26) = .next t ∧ t.block.ph = .parsed :=
  ⟨_, inv_checking, rfl, rfl⟩

theorem witness_NoRunStops : (st .awaitingBytes 0 zeros).block.Inv := inv_awaiting

theorem witness_BytesStandInArrivalOrder :
    (st .parsed 9 v26).block.ph = .parsed ∧ ([] : List Byte).length ≤ 9 ∧ v26.toList.length ≤ 9 := by decide

theorem witness_ErrorExactlyWhenFailed : (block .checksumCheck 9 v26).Inv := inv_checking

/-- A call offered in full: the command, nine bytes, and the turns that take them. -/
theorem witness_WholeCallReturnsDecodedWindow :
    ∃ s : State, s.block.ph = .failed ∧ s.env.cmd = 0 :: [] ∧ handOver (noisy v26) v26.toList ∧
      s.env.rx = noisy v26 ++ [] ∧ s.env.turns = .caller :: (frameTurns ++ []) :=
  ⟨{ st .failed 9 v12 .invalidChecksum with env := { cmd := [0], rx := noisy v26, turns := .caller :: frameTurns } },
   rfl, rfl, handOver_noisy _, by simp, rfl⟩

/-- A read that fails at once, and one that fails after eight bytes (T1, T9). -/
theorem witness_FailedReadReturnsReadError :
    ∃ s t : State, s.block.ph = .idle ∧ s.env.cmd = 0 :: [] ∧ handOver [] [] ∧
      s.env.rx = [] ++ (⟨1, 0x55, 0⟩ :: []) ∧
      s.env.turns = .caller :: (List.replicate (([] : List Byte).length + 1) .source ++ []) ∧
      t.block.ph = .idle ∧ t.env.cmd = 0 :: [] ∧ handOver ((noisy v26).take 8) (v26.toList.take 8) ∧
      t.env.rx = (noisy v26).take 8 ++ (⟨1, 0x55, 0⟩ :: []) ∧
      t.env.turns = .caller :: (List.replicate ((v26.toList.take 8).length + 1) .source ++ []) ∧
      (v26.toList.take 8).length ≤ 8 :=
  ⟨{ st .idle 0 zeros with env := { cmd := [0], rx := [⟨1, 0x55, 0⟩], turns := [.caller, .source] } },
   { st .idle 0 zeros with env := { cmd := [0], rx := (noisy v26).take 8 ++ [⟨1, 0x55, 0⟩], turns := .caller :: List.replicate 9 .source } },
   rfl, rfl, ⟨rfl, by simp⟩, rfl, rfl, rfl, rfl,
   ⟨by rw [List.map_take, (handOver_noisy v26).1], fun x hx => (handOver_noisy v26).2 x (List.mem_of_mem_take hx)⟩, rfl, rfl, by decide⟩

/-- Two waiting blocks whose buffers differ only where this call has stored nothing yet. -/
theorem witness_StepReadsOnlyThisCall :
    ∃ s t s' : State, s.block.Inv ∧ t.block.Inv ∧ s.env = t.env ∧ s.block.SameCall t.block ∧
      s.block.buf[0] ≠ t.block.buf[0] ∧ step s = .next s' :=
  ⟨st .awaitingBytes 0 zeros, st .awaitingBytes 0 v26, _, inv_awaiting, by constructor <;> decide, rfl,
   ⟨rfl, rfl, rfl, fun k _ hk => absurd hk (Nat.not_lt_zero k), nofun, nofun⟩, by decide, rfl⟩

theorem witness_StartForgetsEarlierCalls :
    (st .parsed 9 v26).block.ph = .parsed ∧ (st .failed 9 v12 .invalidChecksum).block.ph = .failed ∧
    (st .idle 3 v12).block.ph = .idle := ⟨rfl, rfl, rfl⟩

end Sys2Proof.Tests
end

/-! ## Proofs: one step, one event (spec/00_scope.md R9) -/

namespace Sys2Proof.Machine

/-! ### What a step takes from the channels -/

/-- Both RX events have one guard (R64, R65), so the ignored payload does not decide acceptance. -/
theorem accepts_decodeRx (x : RxWord) (p : Phase) : accepts (decodeRx x) p = p.isAwaiting := by
  rcases decodeRx_cases x with ⟨_, e⟩ | ⟨_, e⟩ <;> rw [e] <;> rfl

theorem isCmdEvent_decodeCmd (c : BitVec 1) : isCmdEvent (decodeCmd c) = true := by
  rcases decodeCmd_cases c with ⟨_, e⟩ | ⟨_, e⟩ <;> rw [e] <;> rfl

theorem isRxEvent_decodeRx (x : RxWord) : isRxEvent (decodeRx x) = true := by
  rcases decodeRx_cases x with ⟨_, e⟩ | ⟨_, e⟩ <;> rw [e] <;> rfl

/-- An offer that is not accepted stays at the head of its channel (R70). -/
theorem State.take_of_not_accepted {s : State} {w : ChanWord} {i : Instr} (hd : decode w = .ok i)
    (ha : accepts i s.block.ph = false) : s.take w = s.passTurn := by
  cases w with
  | cmd c => cases hd; simp [State.take, Block.takes, ha, State.passTurn]
  | rx x =>
    cases hd
    rw [accepts_decodeRx] at ha
    simp [State.take, Block.takes, ha, State.passTurn]
  | frame _ => rfl
  | phase _ => rfl
  | resetLine => rfl

/-- Between `e` and `e'` the step `i` of R9 has taken what it consumes: a CMD event the head of the
commands, an RX event the head of the RX words, an internal step or `RESET` nothing. -/
def TakesOwnEvent (i : Instr) (e e' : Env) : Prop :=
  (isCmdEvent i = true ∧ e'.rx = e.rx ∧ ∃ c, decode (.cmd c) = .ok i ∧ e.cmd = c :: e'.cmd) ∨
  (isRxEvent i = true ∧ e'.cmd = e.cmd ∧ ∃ x, decode (.rx x) = .ok i ∧ e.rx = x :: e'.rx) ∨
  (takesNoEvent i = true ∧ e'.cmd = e.cmd ∧ e'.rx = e.rx)

/-- An accepted offer is taken from the head of its own channel (R32, R70). -/
theorem State.take_of_accepted {s : State} {w : ChanWord} {i : Instr} (ho : s.offered = some w)
    (hd : decode w = .ok i) (ha : accepts i s.block.ph = true) :
    TakesOwnEvent i s.env (s.take w).env := by
  rcases offered_decode_cases ho hd with
    ⟨c, rfl, rfl⟩ | ⟨x, rfl, rfl⟩ | ⟨rfl, rfl⟩ | ⟨rfl, rfl⟩ | ⟨rfl, rfl⟩
  · obtain ⟨cs, hcs⟩ := offered_cmd ho
    exact .inl ⟨isCmdEvent_decodeCmd c, rfl, c, rfl, by simp [State.take, Block.takes, ha, hcs]⟩
  · obtain ⟨rs, hrs⟩ := offered_rx ho
    rw [accepts_decodeRx] at ha
    exact .inr (.inl ⟨isRxEvent_decodeRx x, rfl, x, rfl, by simp [State.take, Block.takes, ha, hrs]⟩)
  · exact .inr (.inr ⟨rfl, rfl, rfl⟩)
  · exact .inr (.inr ⟨rfl, rfl, rfl⟩)
  · exact .inr (.inr ⟨rfl, rfl, rfl⟩)

/-- R9: a step lets the turn pass, or is one accepted step that reads and writes the block alone and
takes its own event. -/
theorem step_passes_or_takes_event {s t : State} (h : step s = .next t) :
    t = s.passTurn ∨
    ∃ w i, t = { s.take w with block := t.block } ∧ isStep i = true ∧ accepts i s.block.ph = true ∧
      exec i s = .next { s with block := t.block } ∧ TakesOwnEvent i s.env t.env := by
  rcases step_block_cases h with hpass | ⟨w, i, ho, hd, hi, ht, hexec⟩
  · exact .inl hpass
  · cases ha : accepts i s.block.ph with
    | true =>
      have htakes : TakesOwnEvent i s.env t.env := by
        rw [step_env ho h]
        exact State.take_of_accepted ho hd ha
      exact .inr ⟨w, i, ht, hi, ha, hexec, htakes⟩
    | false =>
      have hblock : t.block = s.block := by
        rw [exec_of_not_accepted hi ha] at hexec
        injection hexec with hs
        exact (congrArg State.block hs).symm
      left
      rw [ht, hblock, State.take_of_not_accepted hd ha]
      rfl

end Sys2Proof.Machine

section
open Sys2Proof Sys2Proof.Machine

/-- Settles O42: `step` looks the offer up, decodes it and runs it. -/
theorem stepRunsDecodedInstruction : Obligations.StepRunsDecodedInstruction := by
  intro s w i ho hd
  have hstep : step s = exec i (s.take w) := by simp [step, ho, hd]
  exact ⟨hstep, State.take_block s w, State.take_fnValue s w, State.take_turns s w⟩

/-- Settles O43: an offer that is not accepted only lets the turn pass, and an accepted one is taken from
its own channel. -/
theorem stepIsAtMostOneEvent : Obligations.StepIsAtMostOneEvent := by
  intro s t h
  rcases step_passes_or_takes_event h with rfl | ⟨w, i, ht, hi, ha, hexec, htakes⟩
  · exact ⟨rfl, rfl, .inl ⟨rfl, rfl, rfl⟩⟩
  · have hfn : t.fnValue = s.fnValue := by rw [ht]; exact State.take_fnValue s w
    have hturns : t.env.turns = s.env.turns.tail := by rw [ht]; exact State.take_turns s w
    exact ⟨hfn, hturns, .inr ⟨i, hi, ha, hexec, htakes⟩⟩

end

/-! ## Proofs: the transport's error is opaque (spec/00_scope.md R6) -/

namespace Sys2Proof.Machine

section
variable {α β : Type} (f : α → β) (b : Block α)

/-! ### Carrying the error over, one lemma per operation of the block -/

@[simp] theorem Block.map_ph : (b.map f).ph = b.ph := rfl
@[simp] theorem Block.map_hdrOk : (b.map f).hdrOk = b.hdrOk := rfl
@[simp] theorem Block.map_csumOk : (b.map f).csumOk = b.csumOk := rfl

theorem Block.map_fail (e : FrameError α) : (b.map f).fail (mapError f e) = (b.fail e).map f := by
  cases e <;> rfl

theorem Block.map_judgeHeader : (b.map f).judgeHeader = b.judgeHeader.map f := by
  unfold Block.judgeHeader
  rw [Block.map_hdrOk]
  cases b.hdrOk
  · exact Block.map_fail f b .invalidStartFrame
  · rfl

theorem Block.map_judgeChecksum : (b.map f).judgeChecksum = b.judgeChecksum.map f := by
  unfold Block.judgeChecksum
  rw [Block.map_csumOk]
  cases b.csumOk
  · exact Block.map_fail f b .invalidChecksum
  · rfl

theorem Block.map_receive (v : Byte) : (b.map f).receive v = (b.receive v).map (Block.map f) := by
  by_cases h : b.cnt.val < 9
  · rw [receive_eq b v h, receive_eq (b.map f) v h]
    rfl
  · rw [receive_full b v h, receive_full (b.map f) v h]
    rfl

theorem Block.map_receiveAll (vs : List Byte) :
    (b.map f).receiveAll vs = (b.receiveAll vs).map (Block.map f) := by
  induction vs generalizing b with
  | nil => rfl
  | cons v vs ih =>
    simp only [Block.receiveAll, Block.map_ph, Block.map_receive]
    cases b.ph.isAwaiting with
    | false => rfl
    | true =>
      cases b.receive v with
      | ok b' => exact ih b'
      | error e => rfl

theorem Block.map_settle : (b.map f).settle = b.settle.map f := by
  simp only [Block.settle, Block.map_ph, Block.map_judgeHeader, ← apply_ite (Block.map f),
    Block.map_judgeChecksum]

theorem Block.map_receiveWindow (w : Window) :
    (b.map f).receiveWindow w = (b.receiveWindow w).map (Block.map f) := by
  unfold Block.receiveWindow
  rw [Block.map_receiveAll]
  cases b.receiveAll w.toList with
  | ok b' => exact congrArg Except.ok (Block.map_settle f b')
  | error e => rfl

theorem Block.map_result : (b.map f).result = b.result.map (mapResult f) := by
  obtain ⟨buf, cnt, ph, dist, str, itime, err, terr⟩ := b
  cases ph with
  | failed => cases err <;> rfl
  | _ => rfl

/-- No clause of the invariant of R20 speaks of `terr`. -/
theorem Block.map_inv : (b.map f).Inv ↔ b.Inv :=
  ⟨fun h => ⟨h.idle, h.awaiting, h.checking, h.headerJudged, h.parsed, h.frame, h.failed, h.badHeader,
    h.badChecksum, h.readFailed⟩,
   fun h => ⟨h.idle, h.awaiting, h.checking, h.headerJudged, h.parsed, h.frame, h.failed, h.badHeader,
    h.badChecksum, h.readFailed⟩⟩

end

end Sys2Proof.Machine

section
open Sys2Proof Sys2Proof.Machine

/-- Settles O57: every operation of the block commutes with `Block.map f`, and nothing else the block
shows depends on `terr`. -/
theorem transportErrorIsOpaque : Obligations.TransportErrorIsOpaque := by
  intro α β f b
  exact ⟨rfl, rfl, rfl, Block.map_fail f b, Block.map_receive f b, Block.map_receiveWindow f b,
    Block.map_judgeHeader f b, Block.map_judgeChecksum f b, Block.map_hdrOk f b, Block.map_csumOk f b,
    Block.map_ph f b, rfl, rfl, Block.map_result f b, Block.map_inv f b⟩

end

/-! ## Proofs: the state and its invariant (spec/10_state.md) -/

namespace Sys2Proof.Machine

/-! ### What the two checks and the field reads mean as numbers (R55, R57, R58) -/

/-- The wrapping accumulator is the wide sum truncated once (R57). -/
theorem sum8_toNat (w : Window) : (sum8 w).toNat = exactSum w % 256 := by
  simp [sum8, exactSum]

/-- The checksum check as a fact about the exact sum (R55). -/
theorem checksumOk_iff_exactSum (w : Window) : checksumOk w = true ↔ exactSum w % 256 = w[8].toNat := by
  rw [checksumOk_iff, ← BitVec.toNat_inj, sum8_toNat]

theorem checksumOk_eq_false_iff_exactSum (w : Window) :
    checksumOk w = false ↔ exactSum w % 256 ≠ w[8].toNat := by
  rw [← Bool.not_eq_true, checksumOk_iff_exactSum]

theorem le16_toNat (lo hi : Byte) : (le16 lo hi).toNat = lo.toNat + 256 * hi.toNat := by
  have hlt : lo.toNat + 256 * hi.toNat < 2 ^ 16 := by omega
  rw [le16, BitVec.toNat_ofNat, Nat.mod_eq_of_lt hlt]

section
variable {TErr : Type} {a b : Block TErr}

/-! ### What the judging effects leave unchanged (R66, R67) -/

@[simp] theorem Block.judgeHeader_buf : b.judgeHeader.buf = b.buf := by
  rcases judgeHeader_cases b with ⟨_, e⟩ | ⟨_, e⟩ <;> rw [e]

@[simp] theorem Block.judgeHeader_terr : b.judgeHeader.terr = b.terr := by
  rcases judgeHeader_cases b with ⟨_, e⟩ | ⟨_, e⟩ <;> rw [e]

@[simp] theorem Block.judgeHeader_dist : b.judgeHeader.dist = b.dist := by
  rcases judgeHeader_cases b with ⟨_, e⟩ | ⟨_, e⟩ <;> rw [e]

@[simp] theorem Block.judgeHeader_str : b.judgeHeader.str = b.str := by
  rcases judgeHeader_cases b with ⟨_, e⟩ | ⟨_, e⟩ <;> rw [e]

@[simp] theorem Block.judgeHeader_itime : b.judgeHeader.itime = b.itime := by
  rcases judgeHeader_cases b with ⟨_, e⟩ | ⟨_, e⟩ <;> rw [e]

@[simp] theorem Block.judgeChecksum_buf : b.judgeChecksum.buf = b.buf := by
  rcases judgeChecksum_cases b with ⟨_, e⟩ | ⟨_, e⟩ <;> rw [e]

@[simp] theorem Block.judgeChecksum_terr : b.judgeChecksum.terr = b.terr := by
  rcases judgeChecksum_cases b with ⟨_, e⟩ | ⟨_, e⟩ <;> rw [e]

theorem Block.settle_terr (b : Block TErr) : b.settle.terr = b.terr := by
  simp only [Block.settle, apply_ite Block.terr, Block.judgeHeader_terr, Block.judgeChecksum_terr, ite_self]

/-! ### The invariant, phase by phase: the clauses of R20 that speak of other phases are void -/

theorem Block.inv_of_idle (hp : b.ph = .idle) (he : b.err = .none) : b.Inv := by
  constructor <;> simp [hp, he]

theorem Block.inv_of_awaiting (hp : b.ph = .awaitingBytes) (hc : b.cnt.val ≤ 8) (he : b.err = .none) :
    b.Inv := by
  constructor <;> simp [hp, hc, he]

theorem Block.inv_of_headerCheck (hp : b.ph = .headerCheck) (hc : b.cnt.val = 9) (he : b.err = .none) :
    b.Inv := by
  constructor <;> simp [hp, hc, he]

theorem Block.inv_of_checksumCheck (hp : b.ph = .checksumCheck) (hc : b.cnt.val = 9) (he : b.err = .none)
    (hh : headerOk b.buf = true) : b.Inv := by
  have hh := (headerOk_iff _).1 hh
  constructor <;> simp [hp, hc, he, hh]

theorem Block.inv_of_parsed (hp : b.ph = .parsed) (hc : b.cnt.val = 9) (he : b.err = .none)
    (hh : headerOk b.buf = true) (hs : checksumOk b.buf = true)
    (hd : b.dist = read16 b.buf OFF_DIST) (hst : b.str = read16 b.buf OFF_STR)
    (hi : b.itime = read8 b.buf OFF_ITIME) : b.Inv := by
  have hh := (headerOk_iff _).1 hh
  have hs := (checksumOk_iff_exactSum _).1 hs
  have hd : b.dist.toNat = b.buf[2].toNat + 256 * b.buf[3].toNat := by rw [hd]; exact le16_toNat _ _
  have hst : b.str.toNat = b.buf[4].toNat + 256 * b.buf[5].toNat := by rw [hst]; exact le16_toNat _ _
  have hi : b.itime = b.buf[6] := hi
  constructor <;> simp [hp, hc, he, hh, hs, hd, hst, hi]

theorem Block.inv_of_badHeader (hp : b.ph = .failed) (he : b.err = .invalidStartFrame)
    (hc : b.cnt.val = 9) (hh : headerOk b.buf = false) : b.Inv := by
  have hh := (headerOk_eq_false_iff _).1 hh
  constructor <;> simp [hp, he, hc]
  tauto

theorem Block.inv_of_badChecksum (hp : b.ph = .failed) (he : b.err = .invalidChecksum)
    (hc : b.cnt.val = 9) (hh : headerOk b.buf = true) (hs : checksumOk b.buf = false) : b.Inv := by
  have hh := (headerOk_iff _).1 hh
  have hs := (checksumOk_eq_false_iff_exactSum _).1 hs
  constructor <;> simp [hp, he, hc, hh, hs]

theorem Block.inv_of_readError (hp : b.ph = .failed) (he : b.err = .readError) (hc : b.cnt.val ≤ 8) :
    b.Inv := by
  constructor <;> simp [hp, he, hc]

/-! ### Every effect keeps the invariant where its guard holds -/

theorem Block.Inv.receive {b' : Block TErr} {v : Byte} (h : b.Inv) (hp : b.ph = .awaitingBytes)
    (hr : b.receive v = .ok b') : b'.Inv := by
  obtain ⟨hc, he⟩ := h.awaiting hp
  rw [receive_eq b v (by omega)] at hr
  cases hr
  by_cases hlast : b.cnt.val = 8
  · exact Block.inv_of_headerCheck (if_pos hlast) (by simp [hlast]) he
  · exact Block.inv_of_awaiting (by simp [hlast, hp]) (by simp only; omega) he

theorem Block.Inv.judgeHeader (h : b.Inv) (hp : b.ph = .headerCheck) : b.judgeHeader.Inv := by
  obtain ⟨hc, he⟩ := h.checking (.inl hp)
  rcases judgeHeader_cases b with ⟨hh, e⟩ | ⟨hh, e⟩ <;> rw [e]
  · exact Block.inv_of_checksumCheck rfl hc he hh
  · exact Block.inv_of_badHeader rfl rfl hc hh

theorem Block.Inv.judgeChecksum (h : b.Inv) (hp : b.ph = .checksumCheck) : b.judgeChecksum.Inv := by
  obtain ⟨hc, he⟩ := h.checking (.inr hp)
  have hh : headerOk b.buf = true := (headerOk_iff _).2 (h.headerJudged hp)
  rcases judgeChecksum_cases b with ⟨hs, e⟩ | ⟨hs, e⟩ <;> rw [e]
  · exact Block.inv_of_parsed rfl hc he hh hs rfl rfl rfl
  · exact Block.inv_of_badChecksum rfl rfl hc hh hs

end

/-- The invariant of R20 is kept by every instruction but a whole wire frame. -/
theorem exec_keeps_inv {i : Instr} {s t : State} (ha : isAtomic i = true) (hinv : s.block.Inv)
    (h : exec i s = .next t) : t.block.Inv := by
  rcases exec_cases ha h with rfl | ⟨_, v, rfl⟩ | ⟨_, _, rfl⟩ | ⟨_, hp, rfl⟩ | ⟨v, hc, _, hp, rfl⟩ |
    ⟨e, _, hp, rfl⟩ | ⟨_, hp, rfl⟩ | ⟨_, hp, rfl⟩ | ⟨_, rfl⟩
  · exact hinv
  · exact hinv
  · exact Block.inv_of_awaiting rfl (Nat.zero_le 8) rfl
  · exact Block.inv_of_idle rfl (hinv.awaiting hp).2
  · exact hinv.receive (v := v) hp (by rw [receive_eq _ _ hc, hp])
  · exact Block.inv_of_readError rfl rfl (hinv.awaiting hp).1
  · exact hinv.judgeHeader hp
  · exact hinv.judgeChecksum hp
  · exact Block.inv_of_idle rfl rfl

end Sys2Proof.Machine

section
open Sys2Proof Sys2Proof.Machine

/-- Settles O49: a step passes the turn or is one step of R9 on the block, and each of these keeps the
invariant. -/
theorem stepKeepsInvariant : Obligations.StepKeepsInvariant := by
  intro s t hinv h
  rcases step_block_cases h with rfl | ⟨_, i, _, _, hi, _, hexec⟩
  · exact hinv
  · exact exec_keeps_inv (i := i) (t := { s with block := t.block }) (isStep_isAtomic hi) hinv hexec

/-- Settles O48: the reset block is an idle one without an error. -/
theorem resetMeetsInvariant : Obligations.ResetMeetsInvariant := Block.inv_of_idle rfl rfl

end

/-! ## Proofs: no step reads what an earlier call wrote (spec/10_state.md R21) -/

namespace Sys2Proof.Machine

section
variable {TErr : Type} {a b : Block TErr}

/-! ### What two blocks in the same call agree on -/

/-- When the call has stored all nine bytes the whole buffers agree. -/
theorem Block.SameCall.buf_eq (h : a.SameCall b) (hc : a.cnt.val = 9) : a.buf = b.buf :=
  Vector.ext fun k hk => h.stored k hk (by omega)

/-- The result shows only what this call wrote. -/
theorem Block.SameCall.result_eq (h : a.SameCall b) : a.result = b.result := by
  unfold Block.result
  rw [← h.ph, ← h.err]
  cases hp : a.ph with
  | parsed =>
    obtain ⟨hd, hs, hi⟩ := h.frame hp
    simp only [hd, hs, hi]
  | failed =>
    cases he : a.err with
    | readError => simp only [h.cause hp he]
    | none | invalidStartFrame | invalidChecksum => rfl
  | idle | awaitingBytes | headerCheck | checksumCheck => rfl

/-! ### Every effect keeps two blocks in the same call -/

theorem Block.SameCall.startCall : a.startCall.SameCall b.startCall :=
  ⟨rfl, rfl, rfl, fun k _ hk => absurd hk (Nat.not_lt_zero k), nofun, nofun⟩

theorem Block.SameCall.resetSequencer : a.resetSequencer.SameCall b.resetSequencer :=
  ⟨rfl, rfl, rfl, fun k _ hk => absurd hk (Nat.not_lt_zero k), nofun, nofun⟩

theorem Block.SameCall.abandon (h : a.SameCall b) : a.abandon.SameCall b.abandon :=
  ⟨rfl, h.cnt, h.err, h.stored, nofun, nofun⟩

theorem Block.SameCall.fail_readError (h : a.SameCall b) (e : TErr) :
    (a.fail (.readError e)).SameCall (b.fail (.readError e)) :=
  ⟨rfl, h.cnt, rfl, h.stored, nofun, fun _ _ => rfl⟩

/-- A byte received goes to the same offset of both. -/
theorem Block.SameCall.receive {a' : Block TErr} {v : Byte} (h : a.SameCall b)
    (hp : a.ph = .awaitingBytes) (hr : a.receive v = .ok a') :
    ∃ b', b.receive v = .ok b' ∧ a'.SameCall b' := by
  by_cases hc : a.cnt.val < 9
  · rw [receive_eq a v hc] at hr
    cases hr
    refine ⟨_, receive_eq b v (h.cnt ▸ hc), ?_⟩
    constructor
    case ph => simp only [h.ph, h.cnt]
    case cnt => simp only [h.cnt]
    case err => exact h.err
    case stored =>
      intro k hk hlt
      simp only [← h.cnt, Vector.getElem_set]
      split
      · rfl
      · exact h.stored k hk (by simp only at hlt; omega)
    case frame => simp only [hp]; split <;> nofun
    case cause => simp only [hp]; split <;> nofun
  · rw [receive_full a v hc] at hr
    cases hr

theorem Block.SameCall.judgeHeader (h : a.SameCall b) (hc : a.cnt.val = 9) :
    a.judgeHeader.SameCall b.judgeHeader := by
  have hbuf : headerOk a.buf = headerOk b.buf := by rw [h.buf_eq hc]
  rcases judgeHeader_cases a with ⟨ha, ea⟩ | ⟨ha, ea⟩ <;>
    rcases judgeHeader_cases b with ⟨hb, eb⟩ | ⟨hb, eb⟩ <;> rw [ea, eb]
  · exact ⟨rfl, h.cnt, h.err, h.stored, nofun, nofun⟩
  · simp [ha, hb] at hbuf
  · simp [ha, hb] at hbuf
  · exact ⟨rfl, h.cnt, rfl, h.stored, nofun, nofun⟩

theorem Block.SameCall.judgeChecksum (h : a.SameCall b) (hc : a.cnt.val = 9) :
    a.judgeChecksum.SameCall b.judgeChecksum := by
  have hbuf := h.buf_eq hc
  rcases judgeChecksum_cases a with ⟨ha, ea⟩ | ⟨ha, ea⟩ <;>
    rcases judgeChecksum_cases b with ⟨hb, eb⟩ | ⟨hb, eb⟩ <;> rw [ea, eb]
  · refine ⟨rfl, h.cnt, h.err, h.stored, fun _ => ?_, nofun⟩
    simp only [hbuf, and_self]
  · simp [hbuf, hb] at ha
  · simp [hbuf, hb] at ha
  · exact ⟨rfl, h.cnt, rfl, h.stored, nofun, nofun⟩

end

/-! ### Every step keeps two states in the same call -/

/-- A step of R9 leaves the environment to the turn. -/
theorem exec_step_env {i : Instr} {s t : State} (hi : isStep i = true) (h : exec i s = .next t) :
    t.env = s.env := by
  obtain ⟨e, _⟩ := exec_step_reads_block hi rfl h
  rw [e]

section
variable {s t s' : State} (hsame : s.block.SameCall t.block)
include hsame

/-- The guard reads the phase alone, so an event is accepted in both or in neither. -/
theorem onAccept_sameCall (p : Phase → Bool) (f : Block Config.ErrBits → Block Config.ErrBits)
    (hf : p s.block.ph = true → (f s.block).SameCall (f t.block))
    (h : s.onAccept (p s.block.ph) f = .next s') :
    ∃ t', t.onAccept (p t.block.ph) f = .next t' ∧ s'.block.SameCall t'.block := by
  rw [← hsame.ph]
  rcases onAccept_eq_next.1 h with ⟨ha, rfl⟩ | ⟨ha, rfl⟩
  · exact ⟨_, onAccept_eq_next.2 (.inl ⟨ha, rfl⟩), hf ha⟩
  · exact ⟨t, onAccept_eq_next.2 (.inr ⟨ha, rfl⟩), hsame⟩

theorem execRxbyte_sameCall {v : Byte} (h : execRxbyte v s = .next s') :
    ∃ t', execRxbyte v t = .next t' ∧ s'.block.SameCall t'.block := by
  unfold execRxbyte at h ⊢
  rw [← hsame.ph]
  rcases onAcceptWrite_eq_next.1 h with ⟨ha, b, hb, rfl⟩ | ⟨ha, rfl⟩
  · obtain ⟨b', hb', hsame'⟩ := hsame.receive ((isAwaiting_iff _).1 ha) hb
    exact ⟨_, onAcceptWrite_eq_next.2 (.inl ⟨ha, b', hb', rfl⟩), hsame'⟩
  · exact ⟨t, onAcceptWrite_eq_next.2 (.inr ⟨ha, rfl⟩), hsame⟩

theorem exec_sameCall {i : Instr} (hi : isStep i = true) (hinv : s.block.Inv) (h : exec i s = .next s') :
    ∃ t', exec i t = .next t' ∧ s'.block.SameCall t'.block := by
  cases i with
  | data | chkhdr | chksum | parse => cases hi
  | decodeSp | decode =>
    exact onAccept_sameCall hsame Phase.acceptsStart _ (fun _ => Block.SameCall.startCall) h
  | cancel => exact onAccept_sameCall hsame Phase.isAwaiting _ (fun _ => hsame.abandon) h
  | rxbyte v => exact execRxbyte_sameCall hsame h
  | rxfail e =>
    show ∃ t', execRxfail e t = .next t' ∧ s'.block.SameCall t'.block
    exact onAccept_sameCall hsame Phase.isAwaiting (Block.fail · (.readError e))
      (fun _ => hsame.fail_readError e) h
  | hdrstep =>
    refine onAccept_sameCall hsame (· == .headerCheck) _ (fun hp => hsame.judgeHeader ?_) h
    exact (hinv.checking (.inl (by simpa using hp))).1
  | csumstep =>
    refine onAccept_sameCall hsame (· == .checksumCheck) _ (fun hp => hsame.judgeChecksum ?_) h
    exact (hinv.checking (.inr (by simpa using hp))).1
  | reset => cases h; exact ⟨_, rfl, Block.SameCall.resetSequencer⟩

/-- The offer depends on the environment and the phase alone. -/
theorem offered_sameCall (henv : s.env = t.env) : s.offered = t.offered := by
  simp only [State.offered, henv, hsame.ph]

/-- What is taken from the channels depends on the environment and the phase alone. -/
theorem take_env_sameCall (henv : s.env = t.env) (w : ChanWord) : (s.take w).env = (t.take w).env := by
  cases w <;> simp [State.take, State.passTurn, Block.takes, henv, hsame.ph]

/-- Both states are offered the same word and take the same from the channels, and its instruction
keeps them in the same call. -/
theorem step_sameCall (henv : s.env = t.env) (hinv : s.block.Inv) (h : step s = .next s') :
    ∃ t', step t = .next t' ∧ t'.env = s'.env ∧ s'.block.SameCall t'.block := by
  unfold step at h ⊢
  rw [← offered_sameCall hsame henv]
  cases ho : s.offered with
  | none =>
    simp only [ho] at h
    cases h
    exact ⟨_, rfl, by simp [State.passTurn, henv], hsame⟩
  | some w =>
    have htake : (s.take w).block.SameCall (t.take w).block := by simpa using hsame
    have hchan : (t.take w).env = (s.take w).env := (take_env_sameCall hsame henv w).symm
    cases hd : decode w with
    | error e =>
      simp only [ho, hd] at h ⊢
      cases h
      exact ⟨_, rfl, hchan, htake⟩
    | ok i =>
      simp only [ho, hd] at h ⊢
      have hi := offered_isStep ho hd
      obtain ⟨t', ht', hsame'⟩ := exec_sameCall htake hi (by simpa using hinv) h
      exact ⟨t', ht', by rw [exec_step_env hi ht', exec_step_env hi h, hchan], hsame'⟩

end

end Sys2Proof.Machine

section
open Sys2Proof Sys2Proof.Machine

/-- Settles O55: a step keeps the two states in the same call, which determines the result. -/
theorem stepReadsOnlyThisCall : Obligations.StepReadsOnlyThisCall := by
  intro s t s' hinv _ henv hsame h
  obtain ⟨t', ht', henv', hsame'⟩ := step_sameCall hsame henv hinv h
  exact ⟨t', ht', henv', hsame', hsame'.result_eq⟩

end

/-! ## Proofs: the derived outputs, and who writes which register (spec/10_state.md R11 to R18, R24) -/

namespace Sys2Proof.Machine

variable {TErr : Type}

theorem isAtomic_or_data (i : Instr) : isAtomic i = true ∨ ∃ d st it r c, i = .data d st it r c := by
  cases i with
  | data d st it r c => exact .inr ⟨d, st, it, r, c, rfl⟩
  | _ => exact .inl rfl

/-- A window handed over with nine bytes already stored meets an offset that does not exist. -/
theorem receiveWindow_full (b : Block TErr) (w : Window) (hp : b.ph = .awaitingBytes)
    (hc : ¬ b.cnt.val < 9) : b.receiveWindow w = .error .bufOffset := by
  obtain ⟨v, vs, hw⟩ := List.exists_cons_of_length_pos (l := w.toList) (by simp)
  simp [Block.receiveWindow, hw, Block.receiveAll, hp, Phase.isAwaiting, receive_full b v hc]

/-- The next states of a whole wire frame: unchanged, or a full buffer judged. -/
theorem exec_data_cases {d st : Half} {it r c : Byte} {s t : State}
    (h : exec (.data d st it r c) s = .next t) :
    t = s ∨ ∃ buf : Window,
      t = { s with block := Block.settle { s.block with buf := buf, cnt := 9, ph := .headerCheck } } := by
  have h' : execData d st it r c s = .next t := h
  rcases onAcceptWrite_eq_next.1 h' with ⟨ha, b, hb, rfl⟩ | ⟨_, rfl⟩
  · have hp := (isAwaiting_iff _).1 ha
    by_cases hc : s.block.cnt.val < 9
    · obtain ⟨buf, _, _, e⟩ := receiveWindow_eq s.block (frameBytes d st it r c) hp (by omega)
      rw [e] at hb
      cases hb
      exact .inr ⟨buf, rfl⟩
    · rw [receiveWindow_full _ _ hp hc] at hb
      cases hb
  · exact .inl rfl

end Sys2Proof.Machine

section
open Sys2Proof Sys2Proof.Machine

/-- Settles O2: each output is read off the phase, and in `FAILED` off the error kind. -/
theorem resultReadsByPhase : Obligations.ResultReadsByPhase := by
  intro TErr b
  refine ⟨?_, ?_, ?_, ?_, ?_, ?_, ?_⟩
  · cases hp : b.ph <;> simp [Block.busy, hp]
  · cases hp : b.ph <;> simp [Block.done, hp]
  · intro hp
    simp [Block.result, hp]
  · intro hp he
    simp [Block.result, hp, he]
  · intro hp he
    simp [Block.result, hp, he]
  · intro hp he
    simp [Block.result, hp, he]
  · cases hp : b.ph <;> simp [Block.done, Block.result, hp]

/-- Settles O52: each clause of the invariant gives `err` for its phase, and with `err` known in
`FAILED` the result is there. -/
theorem errorExactlyWhenFailed : Obligations.ErrorExactlyWhenFailed := by
  intro TErr b h
  cases hp : b.ph with
  | idle => simp [Block.result, Block.done, hp, h.idle hp]
  | awaitingBytes => simp [Block.result, Block.done, hp, (h.awaiting hp).2]
  | headerCheck => simp [Block.result, Block.done, hp, (h.checking (.inl hp)).2]
  | checksumCheck => simp [Block.result, Block.done, hp, (h.checking (.inr hp)).2]
  | parsed => simp [Block.result, Block.done, hp, (h.parsed hp).2.1]
  | failed =>
    have he := h.failed hp
    cases hk : b.err with
    | none => exact absurd hk he
    | invalidStartFrame | invalidChecksum | readError => simp [Block.result, Block.done, hp, hk]

/-- Settles O1: the reset values, and the outputs read off them. -/
theorem resetStateIsIdle : Obligations.ResetStateIsIdle := ⟨rfl, rfl, rfl, rfl, rfl, rfl, rfl, rfl⟩

/-- Settles O38: of the rows an atomic instruction can be, only that of `RXBYTE` writes `buf`, at `cnt`
alone. -/
theorem bufferIsWrittenOnlyByBytes : Obligations.BufferIsWrittenOnlyByBytes := by
  intro i s t ha h k hk hne
  rcases exec_cases ha h with rfl | ⟨_, v, rfl⟩ | ⟨_, _, rfl⟩ | ⟨_, _, rfl⟩ | ⟨v, hc, hi, hp, rfl⟩ |
    ⟨e, _, _, rfl⟩ | ⟨_, _, rfl⟩ | ⟨_, _, rfl⟩ | ⟨_, rfl⟩
  -- the row of `RXBYTE`
  case inr.inr.inr.inr.inl =>
    have hcnt : k = s.block.cnt.val := by
      by_contra hcnt
      exact hne (Vector.getElem_set_ne hc hk (Ne.symm hcnt))
    subst hcnt
    exact ⟨hp, rfl, by simpa using hi⟩
  all_goals simp at hne

/-- Settles O40: `terr` is written where `ReadError` is raised, and a whole wire frame ends in steps that
do not raise it. -/
theorem transportErrorWrittenOnlyByRxfail : Obligations.TransportErrorWrittenOnlyByRxfail := by
  intro i s t h hne
  rcases isAtomic_or_data i with ha | ⟨d, st, it, r, c, rfl⟩
  · rcases exec_cases ha h with rfl | ⟨_, v, rfl⟩ | ⟨_, _, rfl⟩ | ⟨_, _, rfl⟩ | ⟨v, hc, _, _, rfl⟩ |
      ⟨e, rfl, _, rfl⟩ | ⟨_, _, rfl⟩ | ⟨_, _, rfl⟩ | ⟨_, rfl⟩
    -- the row of `RXFAIL`
    case inr.inr.inr.inr.inr.inl => rfl
    all_goals simp at hne
  · rcases exec_data_cases h with rfl | ⟨buf, rfl⟩
    · exact absurd rfl hne
    · exact absurd (Block.settle_terr _) hne

/-- Settles O39: `CSUMSTEP` judges a buffer whose header has passed already (R20 (d)), and a whole wire
frame loads the registers after both checks. -/
theorem frameRegistersWrittenOnlyOnPass : Obligations.FrameRegistersWrittenOnlyOnPass := by
  intro i s t hinv h hne
  rcases isAtomic_or_data i with ha | ⟨d, st, it, r, c, rfl⟩
  · rcases exec_cases ha h with rfl | ⟨_, v, rfl⟩ | ⟨_, _, rfl⟩ | ⟨_, _, rfl⟩ | ⟨v, hc, _, _, rfl⟩ |
      ⟨e, _, _, rfl⟩ | ⟨_, _, rfl⟩ | ⟨rfl, hp, rfl⟩ | ⟨_, rfl⟩
    -- the row of `CSUMSTEP`
    case inr.inr.inr.inr.inr.inr.inr.inl =>
      obtain ⟨h0, h1⟩ := hinv.headerJudged hp
      rcases judgeChecksum_cases s.block with ⟨hs, e⟩ | ⟨_, e⟩ <;> rw [e] at hne ⊢
      · exact ⟨.inl rfl, rfl, h0, h1, (checksumOk_iff_exactSum _).1 hs⟩
      · simp at hne
    all_goals simp at hne
  · rcases exec_data_cases h with rfl | ⟨buf, rfl⟩
    · simp at hne
    · rcases settle_cases { s.block with buf := buf, cnt := 9, ph := .headerCheck } rfl with
        ⟨_, e⟩ | ⟨_, _, e⟩ | ⟨hh, hs, e⟩ <;> simp only [e] at hne ⊢
      · simp at hne
      · simp at hne
      · obtain ⟨h0, h1⟩ := (headerOk_iff _).1 hh
        exact ⟨.inr ⟨d, st, it, r, c, rfl⟩, trivial, h0, h1, (checksumOk_iff_exactSum _).1 hs⟩

end

/-! ## Proofs: the bytes of a call and the offers on the channels (spec/20_memory.md) -/

namespace Sys2Proof.Machine

/-! ### Bytes in arrival order -/

/-- `RXBYTE`s run one after another are what `Block.receiveAll` says of their bytes (R64, R70). -/
theorem runInstrs_rxbytes {bs : List Byte} : ∀ {s : State} {b : Block Config.ErrBits},
    s.block.receiveAll bs = .ok b → runInstrs (bs.map Instr.rxbyte) s = .next { s with block := b } := by
  induction bs with
  | nil =>
    intro s b h
    cases h
    rfl
  | cons v vs ih =>
    intro s b h
    simp only [List.map_cons, runInstrs, exec, execRxbyte, State.onAcceptWrite]
    cases ha : s.block.ph.isAwaiting with
    | false =>
      rw [receiveAll_of_not_awaiting _ _ ha] at h
      simpa using ih ((receiveAll_of_not_awaiting _ vs ha).trans h)
    | true =>
      simp only [Block.receiveAll, ha, if_true] at h ⊢
      cases hr : s.block.receive v with
      | ok b' =>
        rw [hr] at h
        exact ih (s := { s with block := b' }) h
      | error f => simp [hr] at h

/-- `START`, where it is accepted, then the instructions of the call (R62). -/
theorem runInstrs_decodeSp (s : State) (is : List Instr) (h : s.block.ph.acceptsStart = true) :
    runInstrs (.decodeSp :: is) s = runInstrs is { s with block := s.block.startCall } := by
  simp [runInstrs, exec, execDecodeSp, State.onAccept, h]

/-- From the start of a call at most nine bytes are all received and are what the call has read. -/
theorem receiveAll_startCall {TErr : Type} (b : Block TErr) (bs : List Byte) (hlen : bs.length ≤ 9) :
    ∃ b', b.startCall.receiveAll bs = .ok b' ∧ b'.HasRead bs ∧
      b'.ph = if bs.length = 9 then .headerCheck else .awaitingBytes := by
  obtain ⟨buf, cnt, hcnt, _, hbytes, _, hrun⟩ :=
    receiveAll_spec bs b.startCall rfl (Nat.zero_le 8) (by simpa using hlen)
  simp only [Block.startCall_cnt, Fin.val_zero, Nat.zero_add] at hcnt hbytes hrun
  exact ⟨_, hrun, ⟨hcnt, hbytes⟩, rfl⟩

/-! ### The word placed is the word offered -/

/-- A code that is a phase is that phase's own (R13). -/
theorem Phase.code_of_ofCode {c : BitVec 3} {p : Phase} (h : Phase.ofCode c = some p) : p.code = c := by
  revert c p
  decide

/-- A numbered word read as a code of `ph` selects an internal step (R66, R67; log entry 6). -/
theorem tableWord_phase {nbits w : Nat} {c : BitVec 3} (h : tableWord nbits w = some (.phase c)) :
    c = 2 ∨ c = 3 := by
  simp only [tableWord, Bool.or_eq_true, beq_iff_eq] at h
  split_ifs at h with _ _ hw
  -- one byte with 2 or 3 at its low bits; every other branch is a word of another kind
  all_goals simp only [Option.some.injEq, ChanWord.phase.injEq, reduceCtorEq] at h
  subst h
  exact hw.imp (fun h2 => BitVec.eq_of_toNat_eq (by simpa using h2))
    (fun h3 => BitVec.eq_of_toNat_eq (by simpa using h3))

/-- A word placed for the next step, other than a wire frame, is what that step is offered. -/
theorem State.place_offered (s : State) {c : ChanWord} (hframe : ∀ v, c ≠ .frame v)
    (hphase : ∀ p, c = .phase p → (Phase.ofCode p).isSome = true) : (s.place c).offered = some c := by
  cases c with
  | frame v => exact absurd rfl (hframe v)
  | cmd c => rfl
  | rx x => rfl
  | resetLine => rfl
  | phase p =>
    obtain ⟨q, hq⟩ := Option.isSome_iff_exists.1 (hphase p rfl)
    simp [State.place, hq, State.offered, Phase.code_of_ofCode hq]

/-! ### What a turn takes from the channels -/

section
variable {s t : State} (h : step s = .next t)
include h

/-- A turn in which no word of a channel is offered takes nothing. -/
theorem step_takes_nothing (ho : s.offered = none ∨ s.offered = some (.phase s.block.ph.code) ∨
    s.offered = some .resetLine) : t.env.rx = s.env.rx ∧ t.env.cmd = s.env.cmd := by
  rcases ho with ho | ho | ho
  · simp only [step, ho] at h
    cases h
    exact ⟨rfl, rfl⟩
  · rw [step_env ho h]
    exact ⟨rfl, rfl⟩
  · rw [step_env ho h]
    exact ⟨rfl, rfl⟩

/-- The byte source's word is taken exactly when the block awaits bytes. -/
theorem step_takes_rx {x : RxWord} {rs : List RxWord} {ts : List Turn} (hrx : s.env.rx = x :: rs)
    (hturn : s.env.turns = .source :: ts) :
    t.env.cmd = s.env.cmd ∧ t.env.rx = if s.block.ph.isAwaiting then rs else x :: rs := by
  have ho : s.offered = some (.rx x) := by simp [State.offered, hturn, hrx]
  rw [step_env ho h]
  cases ha : s.block.ph.isAwaiting <;> simp [State.take, Block.takes, ha, hrx]

/-- The caller's command is taken exactly when the block accepts it. -/
theorem step_takes_cmd {c : BitVec 1} {cs : List (BitVec 1)} {ts : List Turn} (hcmd : s.env.cmd = c :: cs)
    (hturn : s.env.turns = .caller :: ts) :
    t.env.rx = s.env.rx ∧ t.env.cmd = if accepts (decodeCmd c) s.block.ph then cs else c :: cs := by
  have ho : s.offered = some (.cmd c) := by simp [State.offered, hturn, hcmd]
  rw [step_env ho h]
  cases ha : accepts (decodeCmd c) s.block.ph <;> simp [State.take, Block.takes, ha, hcmd]

end

end Sys2Proof.Machine

section
open Sys2Proof Sys2Proof.Machine

/-- Settles O23: `RXBYTE` is accepted and its write meets the offset that does not exist. -/
theorem noNinthOffset : Obligations.NoNinthOffset := by
  intro v s hp hc
  have hfull : s.block.receive v = .error .bufOffset := receive_full s.block v (by omega)
  simp [exec, execRxbyte, State.onAcceptWrite, hp, Phase.isAwaiting, hfull]

/-- Settles O51: `START` empties the count, and the bytes are then received one after another. -/
theorem bytesStandInArrivalOrder : Obligations.BytesStandInArrivalOrder := by
  intro s bs hp hlen
  obtain ⟨b, hb, hread, hph⟩ := receiveAll_startCall s.block bs hlen
  refine ⟨{ s with block := b }, ?_, hread, hph⟩
  rw [runInstrs_decodeSp s _ ((acceptsStart_iff _).2 hp)]
  exact runInstrs_rxbytes hb

/-- Settles O44: a word is placed where `State.offered` looks for it, and a wire frame as its nine bytes. -/
theorem placedWordIsOffered : Obligations.PlacedWordIsOffered := by
  intro s nbits w c hc
  have hplace : s.withFetchWord nbits w = s.place c := by simp [State.withFetchWord, hc]
  rw [hplace]
  refine ⟨fun hframe => s.place_offered hframe ?_, ?_⟩
  · rintro p rfl
    rcases tableWord_phase hc with rfl | rfl <;> rfl
  · rintro v rfl
    exact ⟨rxOfWindow v, handOver_rxOfWindow v, rfl⟩

/-- Settles O45: an agent's turn takes the head of its channel under the acceptance table's guard, and
every other turn is offered no word of a channel. -/
theorem onlyAcceptedOffersAreConsumed : Obligations.OnlyAcceptedOffersAreConsumed := by
  intro s t h
  refine ⟨?_, ?_, ?_, ?_⟩
  · intro x rs ts hrx hturn
    simpa only [isAwaiting_iff] using step_takes_rx h hrx hturn
  · intro cs ts hcmd hturn
    obtain ⟨hrx, hcs⟩ := step_takes_cmd h hcmd hturn
    have hstart : accepts (decodeCmd 0) s.block.ph = !s.block.busy := acceptsStart_eq_not_busy s.block
    rw [hstart] at hcs
    exact ⟨hrx, by cases hb : s.block.busy <;> simpa [hb] using hcs⟩
  · intro cs ts hcmd hturn
    have hcancel : accepts (decodeCmd 1) s.block.ph = s.block.ph.isAwaiting := rfl
    simpa only [hcancel, isAwaiting_iff] using step_takes_cmd h hcmd hturn
  · intro ts hturn
    refine step_takes_nothing h ?_
    rcases hturn with e | e | e | ⟨e, hrx⟩ | ⟨e, hcmd⟩
    · exact .inr (.inl (by simp only [State.offered, e]))
    · exact .inr (.inl (by simp only [State.offered, e]))
    · exact .inr (.inr (by simp only [State.offered, e]))
    · exact .inl (by simp [State.offered, e, hrx])
    · exact .inl (by simp [State.offered, e, hcmd])

end

/-! ## Proofs: the encodings, read and written (spec/30_encoding.md) -/

namespace Sys2Proof.Machine

/-! ### Two bytes as a 16-bit field (R28, R58) -/

theorem le16_eq_append (lo hi : Byte) : le16 lo hi = hi ++ lo := by
  apply BitVec.eq_of_toNat_eq
  rw [le16_toNat, BitVec.toNat_append, ← Nat.shiftLeft_add_eq_or_of_lt lo.isLt, Nat.shiftLeft_eq]
  omega

@[simp] theorem lowByte_le16 (lo hi : Byte) : lowByte (le16 lo hi) = lo := by
  apply BitVec.eq_of_toNat_eq
  rw [lowByte, BitVec.toNat_ofNat, le16_toNat]
  omega

@[simp] theorem highByte_le16 (lo hi : Byte) : highByte (le16 lo hi) = hi := by
  apply BitVec.eq_of_toNat_eq
  rw [highByte, BitVec.toNat_ofNat, le16_toNat]
  omega

@[simp] theorem le16_lowByte_highByte (v : Half) : le16 (lowByte v) (highByte v) = v := by
  apply BitVec.eq_of_toNat_eq
  rw [le16_toNat, lowByte, highByte, BitVec.toNat_ofNat, BitVec.toNat_ofNat]
  omega

/-! ### The bytes of a wire frame and its fields (R33, R40) -/

section
variable (d st : Half) (t r c : Byte)

@[simp] theorem headerOk_frameBytes : headerOk (frameBytes d st t r c) = true := rfl

@[simp] theorem read16_dist_frameBytes : read16 (frameBytes d st t r c) OFF_DIST = d :=
  le16_lowByte_highByte d

@[simp] theorem read16_str_frameBytes : read16 (frameBytes d st t r c) OFF_STR = st :=
  le16_lowByte_highByte st

@[simp] theorem read8_itime_frameBytes : read8 (frameBytes d st t r c) OFF_ITIME = t := rfl

@[simp] theorem read8_rsvd_frameBytes : read8 (frameBytes d st t r c) OFF_RSVD = r := rfl

@[simp] theorem read8_csum_frameBytes : read8 (frameBytes d st t r c) OFF_CSUM = c := rfl

@[simp] theorem parseFields_frameBytes :
    parseFields (frameBytes d st t r c) = { distance := d, strength := st, integrationTime := t } := by
  simp [parseFields]

/-- Offset 8 is not summed (R55, C2), so one checksum byte is right, the sum of the others. -/
theorem checksumOk_frameBytes_iff :
    checksumOk (frameBytes d st t r c) = true ↔ c = sum8 (frameBytes d st t r 0) :=
  (checksumOk_iff _).trans eq_comm

end

/-- A window with the right header is the wire frame of the fields read from it. -/
theorem frameBytes_fields {w : Window} (h : headerOk w = true) :
    frameBytes (read16 w OFF_DIST) (read16 w OFF_STR) (read8 w OFF_ITIME) (read8 w OFF_RSVD)
      (read8 w OFF_CSUM) = w := by
  obtain ⟨h0, h1⟩ := (headerOk_iff w).1 h
  ext k hk
  interval_cases k <;> simp [frameBytes, read16, read8, h0, h1]

section
variable {TErr : Type}

theorem decode9_of_ok {w : Window} (hh : headerOk w = true) (hs : checksumOk w = true) :
    decode9 (TErr := TErr) w = .ok (parseFields w) := by
  simp [decode9, hh, hs]

theorem decode9_of_badSum {w : Window} (hh : headerOk w = true) (hs : checksumOk w = false) :
    decode9 (TErr := TErr) w = .err .invalidChecksum := by
  simp [decode9, hh, hs]

end

/-! ### A frame as the 72-bit word `F` (R7, R40, R41) -/

/-- Two neighbouring bytes of the word are a 16-bit field of it. -/
theorem le16_extractLsb' (f : FrameWord) (k : Nat) :
    le16 (f.extractLsb' k 8) (f.extractLsb' (k + 8) 8) = f.extractLsb' k 16 := by
  rw [le16_eq_append]
  exact BitVec.extractLsb'_append_extractLsb'_eq_extractLsb' rfl

/-- Byte `k` of a word as a digit of its number. -/
theorem windowOfWord_getElem_toNat (f : FrameWord) (k : Nat) (h : k < 9) :
    (windowOfWord f)[k].toNat = f.toNat / 2 ^ (8 * k) % 256 := by
  rw [windowOfWord_getElem f k h, BitVec.extractLsb'_toNat, Nat.shiftRight_eq_div_pow]

/-- Nine bytes fill the 72 bits: the word's number is their sum by weight, without wrap. -/
theorem wordOfWindow_toNat (w : Window) : (wordOfWindow w).toNat =
    w[0].toNat + 2 ^ 8 * w[1].toNat + 2 ^ 16 * w[2].toNat + 2 ^ 24 * w[3].toNat +
      2 ^ 32 * w[4].toNat + 2 ^ 40 * w[5].toNat + 2 ^ 48 * w[6].toNat + 2 ^ 56 * w[7].toNat +
      2 ^ 64 * w[8].toNat := by
  rw [wordOfWindow, BitVec.toNat_ofNat, Nat.mod_eq_of_lt]
  omega

theorem wordOfWindow_windowOfWord (f : FrameWord) : wordOfWindow (windowOfWord f) = f := by
  apply BitVec.eq_of_toNat_eq
  rw [wordOfWindow_toNat]
  simp only [windowOfWord_getElem_toNat]
  omega

theorem windowOfWord_wordOfWindow (w : Window) : windowOfWord (wordOfWindow w) = w := by
  refine Vector.ext fun k hk => BitVec.eq_of_toNat_eq ?_
  rw [windowOfWord_getElem_toNat, wordOfWindow_toNat]
  interval_cases k <;> omega

/-- The mask keeps the two low bytes of the word. -/
theorem mask_eq_header_iff (f : FrameWord) :
    f &&& 0xFFFF#72 = 0x5959#72 ↔ (windowOfWord f)[0] = 0x59 ∧ (windowOfWord f)[1] = 0x59 := by
  have hmask : (f &&& 0xFFFF#72).toNat = f.toNat % 2 ^ 16 := Nat.and_two_pow_sub_one_eq_mod f.toNat 16
  rw [← BitVec.toNat_inj, ← BitVec.toNat_inj, ← BitVec.toNat_inj, hmask, windowOfWord_getElem_toNat,
    windowOfWord_getElem_toNat]
  simp only [BitVec.ofNat_eq_ofNat, BitVec.toNat_ofNat]
  omega

/-! ### The decoder's three answers (R46) -/

section
variable (w : Window)

theorem decodeFrame_eq_invalidStartFrame_iff :
    decodeFrame w = .error .invalidStartFrame ↔ headerOk w = false := by
  rcases decodeFrame_cases w with ⟨hh, e⟩ | ⟨hh, hs, e⟩ | ⟨hh, hs, e⟩ <;> simp [e, hh]

theorem decodeFrame_eq_invalidChecksum_iff :
    decodeFrame w = .error .invalidChecksum ↔ headerOk w = true ∧ checksumOk w = false := by
  rcases decodeFrame_cases w with ⟨hh, e⟩ | ⟨hh, hs, e⟩ | ⟨hh, hs, e⟩
  · simp [e, hh]
  · simp [e, hh, hs]
  · simp [e, hs]

theorem decodeFrame_eq_ok_iff {i : Instr} : decodeFrame w = .ok i ↔
    headerOk w = true ∧ checksumOk w = true ∧
      i = .data (read16 w OFF_DIST) (read16 w OFF_STR) (read8 w OFF_ITIME) (read8 w OFF_RSVD)
        (read8 w OFF_CSUM) := by
  rcases decodeFrame_cases w with ⟨hh, e⟩ | ⟨hh, hs, e⟩ | ⟨hh, hs, e⟩
  · simp [e, hh]
  · simp [e, hs]
  · rw [e, Except.ok.injEq, eq_comm]
    simp only [hh, hs, true_and]

end

/-- The wire frame of a well-formed `DATA` reads back as it. -/
theorem decodeFrame_frameBytes {d st : Half} {t r c : Byte}
    (h : (Instr.data d st t r c).wellFormed = true) :
    decodeFrame (frameBytes d st t r c) = .ok (.data d st t r c) :=
  (decodeFrame_eq_ok_iff _).2 ⟨headerOk_frameBytes .., h, by simp⟩

/-! ### The RES view (R51) -/

/-- What stands above the lower part of a concatenation stands in the upper part. -/
theorem extractLsb'_append_add {m n : Nat} (x : BitVec m) (y : BitVec n) (k len : Nat) :
    (x ++ y).extractLsb' (n + k) len = x.extractLsb' k len := by
  rw [BitVec.extractLsb'_append_eq_of_le (Nat.le_add_right n k), Nat.add_sub_cancel_left]

/-- The packed word, field by field from the most significant (log entry 14). -/
theorem ResView.pack_fields (v : ResView) :
    v.pack.extractLsb' (Config.EW + 42) 3 = v.ph ∧
    v.pack.extractLsb' (Config.EW + 40) 2 = v.err ∧
    v.pack.extractLsb' (Config.EW + 24) 16 = v.dist ∧
    v.pack.extractLsb' (Config.EW + 8) 16 = v.str ∧
    v.pack.extractLsb' Config.EW 8 = v.itime ∧
    v.pack.extractLsb' 0 Config.EW = v.terr := by
  unfold ResView.pack
  refine ⟨?_, ?_, ?_, ?_, ?_, BitVec.extractLsb'_append_eq_right⟩
  · rw [extractLsb'_append_add _ _ 42, extractLsb'_append_add _ _ 34, extractLsb'_append_add _ _ 18,
      extractLsb'_append_add _ _ 2, BitVec.extractLsb'_append_eq_left]
  · rw [extractLsb'_append_add _ _ 40, extractLsb'_append_add _ _ 32, extractLsb'_append_add _ _ 16,
      extractLsb'_append_add _ _ 0, BitVec.extractLsb'_append_eq_right]
  · rw [extractLsb'_append_add _ _ 24, extractLsb'_append_add _ _ 16, extractLsb'_append_add _ _ 0,
      BitVec.extractLsb'_append_eq_right]
  · rw [extractLsb'_append_add _ _ 8, extractLsb'_append_add _ _ 0, BitVec.extractLsb'_append_eq_right]
  · exact (extractLsb'_append_add _ _ 0 8).trans BitVec.extractLsb'_append_eq_right

end Sys2Proof.Machine

section
open Sys2Proof Sys2Proof.Machine

/-- Settles O18: the wire frame by its fields, and every other word as it was written. -/
theorem decodeOfEncode : Obligations.DecodeOfEncode := by
  intro i hwf
  cases i with
  | data d st t r c =>
    refine ⟨?_, by simp [encode]⟩
    rintro _ ⟨⟩
    exact decodeFrame_frameBytes hwf
  | chkhdr | chksum | parse => exact ⟨nofun, by simp [encode]⟩
  | decodeSp | decode | cancel | rxbyte b | rxfail e | hdrstep | csumstep | reset =>
    exact ⟨by rintro _ ⟨⟩; rfl, by simp [encode]⟩

/-- Settles O3: the codes by cases, and each field from the concatenation. -/
theorem resViewShowsRegisters : Obligations.ResViewShowsRegisters := by
  intro b
  refine ⟨?_, ?_, b.res.pack_fields⟩
  · cases hp : b.ph <;> simp [Block.res, Phase.code, hp]
  · cases he : b.err <;> simp [Block.res, ErrKind.code, he]

/-- Settles O14: the one checksum byte is the sum of the other eight. -/
theorem reservedByteIsOnlySummed : Obligations.ReservedByteIsOnlySummed := by
  intro TErr d st t r
  refine ⟨sum8 (frameBytes d st t r 0), ?_, ?_⟩
  · rw [decode9_of_ok (headerOk_frameBytes ..) ((checksumOk_frameBytes_iff ..).2 rfl),
      parseFields_frameBytes]
  · intro c hc
    have hs : checksumOk (frameBytes d st t r c) = false := by
      rw [← Bool.not_eq_true, checksumOk_frameBytes_iff]
      exact hc
    exact decode9_of_badSum (headerOk_frameBytes ..) hs

/-- Settles O15: two bytes side by side are a 16-bit field of `F`, and nine bytes are the digits of `F`. -/
theorem frameFieldsByBits : Obligations.FrameFieldsByBits :=
  ⟨fun f => ⟨rfl, rfl, le16_extractLsb' f 16, le16_extractLsb' f 32, rfl, rfl, rfl,
    wordOfWindow_windowOfWord f⟩, windowOfWord_wordOfWindow⟩

/-- Settles O16: the masked word is the two header bytes. -/
theorem headerIsMaskMatch : Obligations.HeaderIsMaskMatch := by
  intro f
  rw [headerOk_iff]
  exact ⟨mask_eq_header_iff f, mask_eq_header_iff f⟩

/-- Settles O19: an accepted window has the header that the encoder writes, and its fields hold the other
seven bytes. -/
theorem encodeOfDecodedFrame : Obligations.EncodeOfDecodedFrame := by
  intro w i h
  obtain ⟨hh, hs, rfl⟩ := (decodeFrame_eq_ok_iff w).1 h
  simp only [Instr.wellFormed, encode, frameBytes_fields hh, hs, and_self]

/-- Settles O20: the two checks decide the decoder's answer. -/
theorem decoderRejectsByClass : Obligations.DecoderRejectsByClass := by
  intro w
  refine ⟨?_, ?_, ?_⟩
  · exact (decodeFrame_eq_invalidStartFrame_iff w).trans (headerOk_eq_false_iff w)
  · rw [← and_assoc, ← headerOk_iff, ← checksumOk_eq_false_iff_exactSum]
    exact decodeFrame_eq_invalidChecksum_iff w
  · rw [← and_assoc, ← headerOk_iff, ← checksumOk_iff_exactSum]
    simp only [decode, decodeFrame_eq_ok_iff, exists_and_left, exists_eq, and_true]

/-- Settles O17, by evaluation on the spec's words. -/
theorem specWordsDecode : Obligations.SpecWordsDecode :=
  ⟨by decide, rfl, rfl, fun _ => rfl, fun _ _ => rfl, rfl, rfl, rfl⟩

end

/-! ## Proofs: a window offered byte by byte, turn by turn (spec/41_frame_reader.md R64, R66, R67, R71) -/

namespace Sys2Proof.Machine

/-! ### How the call of an illegal window ends (R46, R47) -/

theorem settle_of_illegal {TErr : Type} (b : Block TErr) (hp : b.ph = .headerCheck)
    (hc : classify b.buf ≠ .data) :
    b.settle = { b with
      ph := .failed
      err := if classify b.buf = .badHdr then .invalidStartFrame else .invalidChecksum } := by
  rcases settle_cases b hp with ⟨hh, e⟩ | ⟨hh, hs, e⟩ | ⟨hh, hs, _⟩
  · have hcl : classify b.buf = .badHdr := by simp [classify, hh]
    rw [e, if_pos hcl]
  · have hcl : classify b.buf = .badSum := by simp [classify, hh, hs]
    rw [e, if_neg (by simp [hcl])]
  · exact absurd (by simp [classify, hh, hs]) hc

/-! ### Turns of the block -/

/-- The internal step the phase enables (R66, R67), none in the other phases. -/
def Block.internalStep {TErr : Type} (b : Block TErr) : Block TErr :=
  if b.ph = .headerCheck then b.judgeHeader
  else if b.ph = .checksumCheck then b.judgeChecksum
  else b

/-- From any phase two internal steps are enough to settle (R35, R70). -/
theorem Block.internalStep_internalStep {TErr : Type} (b : Block TErr) :
    b.internalStep.internalStep = b.settle := by
  cases hp : b.ph with
  | headerCheck =>
    rcases judgeHeader_cases b with ⟨_, e⟩ | ⟨_, e⟩ <;> simp [Block.internalStep, Block.settle, hp, e]
  | checksumCheck =>
    rcases judgeChecksum_cases b with ⟨_, e⟩ | ⟨_, e⟩ <;> simp [Block.internalStep, Block.settle, hp, e]
  | idle | awaitingBytes | parsed | failed => simp [Block.internalStep, Block.settle, hp]

/-- The code of `ph` is offered: 2 and 3 select the internal step of their phase, and with any other code
the turn passes. -/
theorem step_block_turn {s : State} {ts : List Turn} (hturn : s.env.turns = .block :: ts) :
    step s = .next { s with block := s.block.internalStep, env := { s.env with turns := ts } } := by
  have ho : s.offered = some (.phase s.block.ph.code) := by simp only [State.offered, hturn]
  cases hp : s.block.ph <;>
    simp [step, ho, hp, Phase.code, decode, decodePhase, exec, execHdrstep, execCsumstep, State.onAccept,
      State.take, State.passTurn, hturn, Block.internalStep]

/-! ### Turns of the byte source -/

theorem step_source_byte {s : State} {x : RxWord} {rs : List RxWord} {ts : List Turn}
    {b : Block Config.ErrBits} (hp : s.block.ph.isAwaiting = true) (hrx : s.env.rx = x :: rs)
    (hturn : s.env.turns = .source :: ts) (hk : x.kind = 0) (hb : s.block.receive x.data = .ok b) :
    step s = .next { s with block := b, env := { s.env with rx := rs, turns := ts } } := by
  have ho : s.offered = some (.rx x) := by simp [State.offered, hturn, hrx]
  have hd : decode (.rx x) = .ok (.rxbyte x.data) := by simp [decode, decodeRx, hk]
  simp [step, ho, hd, exec, execRxbyte, State.onAcceptWrite, State.take, State.passTurn, Block.takes, hp,
    hb, hrx, hturn]

/-- Where no byte is awaited the byte source's turn passes and its words stay with it (R34, R70). -/
theorem step_source_not_awaiting {s : State} {ts : List Turn} (hp : s.block.ph.isAwaiting = false)
    (hturn : s.env.turns = .source :: ts) :
    step s = .next { s with env := { s.env with turns := ts } } := by
  have hpass : s.passTurn = { s with env := { s.env with turns := ts } } := by
    simp [State.passTurn, hturn]
  rw [← hpass]
  cases hrx : s.env.rx with
  | nil =>
    have ho : s.offered = none := by simp [State.offered, hturn, hrx]
    simp only [step, ho]
  | cons x rs =>
    have ho : s.offered = some (.rx x) := by simp [State.offered, hturn, hrx]
    have ha : accepts (decodeRx x) s.block.ph = false := (accepts_decodeRx x _).trans hp
    have htake : s.take (.rx x) = s.passTurn := State.take_of_not_accepted rfl ha
    have hexec : exec (decodeRx x) s.passTurn = .next s.passTurn :=
      exec_of_not_accepted (offered_isStep ho rfl) ha
    simp only [step, ho, decode, htake, hexec]

/-! ### Runs of several turns -/

/-- A run in two parts. -/
theorem run_add {s t : State} (m n : Nat) (h : Sys2Proof.core.run m s = .next t) :
    Sys2Proof.core.run (m + n) s = Sys2Proof.core.run n t := by
  induction m generalizing s with
  | zero => cases h; rw [Nat.zero_add]
  | succ m ih =>
    cases hs : step s with
    | next u =>
      rw [run_succ m hs] at h
      rw [Nat.succ_add, run_succ _ hs]
      exact ih h
    | fault f => simp [Host.Core.run, Sys2Proof.core, hs] at h
    | refused r => simp [Host.Core.run, Sys2Proof.core, hs] at h

theorem run_block_turns {s : State} {ts : List Turn} (hturn : s.env.turns = .block :: .block :: ts) :
    Sys2Proof.core.run 2 s = .next { s with block := s.block.settle, env := { s.env with turns := ts } } := by
  rw [run_succ 1 (step_block_turn hturn), run_succ 0 (step_block_turn rfl),
    Block.internalStep_internalStep]
  rfl

theorem run_source_not_awaiting {s : State} {ts : List Turn} (n : Nat)
    (hp : s.block.ph.isAwaiting = false) (hturn : s.env.turns = List.replicate n .source ++ ts) :
    Sys2Proof.core.run n s = .next { s with env := { s.env with turns := ts } } := by
  induction n generalizing s with
  | zero =>
    have hts : s.env.turns = ts := by simpa using hturn
    rw [← hts]
    rfl
  | succ n ih =>
    rw [run_succ n (step_source_not_awaiting hp hturn)]
    exact ih hp rfl

/-- Bytes on the byte source's turns are what `Block.receiveAll` says of them: as many words are taken as
the buffer has room for, and the rest stay (R64 (b), R72). -/
theorem run_source_bytes {bs : List Byte} {rs : List RxWord} {ts : List Turn} :
    ∀ {xs : List RxWord} {s : State} {b : Block Config.ErrBits}, handOver xs bs →
      s.env.rx = xs ++ rs → s.env.turns = List.replicate bs.length .source ++ ts →
      s.block.ph = .awaitingBytes → s.block.cnt.val ≤ 8 → s.block.receiveAll bs = .ok b →
      Sys2Proof.core.run bs.length s = .next { s with
        block := b
        env := { s.env with rx := xs.drop (9 - s.block.cnt.val) ++ rs, turns := ts } } := by
  induction bs with
  | nil =>
    rintro xs s b ⟨hdata, _⟩ hrx hturn _ _ hb
    obtain rfl : xs = [] := by simpa using hdata
    have hturn : s.env.turns = ts := by simpa using hturn
    cases hb
    simp only [List.drop_nil, ← hrx, ← hturn]
    rfl
  | cons v vs ih =>
    rintro xs s b ⟨hdata, hkind⟩ hrx hturn hp h8 hb
    obtain ⟨x, xs, rfl, rfl, rfl⟩ := List.map_eq_cons_iff.1 hdata
    have ha := (isAwaiting_iff _).2 hp
    have hroom : s.block.cnt.val < 9 := by omega
    have hstep := step_source_byte ha hrx hturn (hkind x (by simp)) (receive_eq _ x.data hroom)
    rw [receiveAll_cons _ _ _ ha hroom] at hb
    rw [List.length_cons, run_succ _ hstep]
    by_cases hlast : s.block.cnt.val = 8
    · rw [receiveAll_of_not_awaiting _ _ (by simp [hlast, Phase.isAwaiting])] at hb
      cases hb
      rw [run_source_not_awaiting _ (by simp [hlast, Phase.isAwaiting]) rfl]
      simp [hlast]
    · rw [ih ⟨rfl, fun y hy => hkind y (by simp [hy])⟩ rfl rfl (by simp [hlast, hp])
        (by simp only; omega) hb]
      have hdrop : 9 - s.block.cnt.val = 9 - (s.block.cnt.val + 1) + 1 := by omega
      simp only [hdrop, List.drop_succ_cons]

/-- The eleven turns of a window come to `Block.receiveWindow` (R71 (a); log entry 8). -/
theorem run_frameTurns {s : State} {w : Window} {xs rs : List RxWord} {ts : List Turn}
    {b : Block Config.ErrBits} (hx : handOver xs w.toList) (hrx : s.env.rx = xs ++ rs)
    (hturn : s.env.turns = frameTurns ++ ts) (hp : s.block.ph = .awaitingBytes)
    (h8 : s.block.cnt.val ≤ 8) (hb : s.block.receiveWindow w = .ok b) :
    Sys2Proof.core.run 11 s = .next { s with
      block := b
      env := { s.env with rx := xs.drop (9 - s.block.cnt.val) ++ rs, turns := ts } } := by
  unfold Block.receiveWindow at hb
  cases hall : s.block.receiveAll w.toList with
  | error f => simp [hall] at hb
  | ok b' =>
    rw [hall] at hb
    cases hb
    have hlen : w.toList.length = 9 := by simp
    have hbytes := run_source_bytes (ts := .block :: .block :: ts) hx hrx (by rw [hturn, hlen]; rfl) hp h8 hall
    rw [hlen] at hbytes
    rw [run_add 9 2 hbytes, run_block_turns rfl]

/-- One word for each byte (R50). -/
theorem handOver_length {xs : List RxWord} {bs : List Byte} (h : handOver xs bs) : xs.length = bs.length := by
  rw [← h.1, List.length_map]

end Sys2Proof.Machine

section
open Sys2Proof Sys2Proof.Machine

/-- Settles O33: the eleven turns store the window and settle it, and settling an illegal window only
names its class. -/
theorem illegalWindowFailsTheCall : Obligations.IllegalWindowFailsTheCall := by
  intro w s xs rs ts hp h0 hx hrx hturn hc
  have hwindow := receiveWindow_fresh s.block w hp h0
  rw [settle_of_illegal _ rfl hc] at hwindow
  have hdrop : xs.drop (9 - s.block.cnt.val) = [] :=
    List.drop_eq_nil_of_le (by rw [handOver_length hx, h0]; simp)
  rw [run_frameTurns hx hrx hturn hp (by omega) hwindow, hdrop, List.nil_append]

end

/-! ## Proofs: the Frame Model's functions and the wire frame as a whole (spec/40_frame_model.md) -/

namespace Sys2Proof.Machine

/-! ### The sum and the fields (R55, R57, R58) -/

theorem take_eight_toList (w : Window) :
    w.toList.take 8 = [w[0], w[1], w[2], w[3], w[4], w[5], w[6], w[7]] := by
  refine List.ext_getElem (by simp) fun k hk _ => ?_
  have hk8 : k < 8 := by simpa using hk
  interval_cases k <;> simp

/-- Addition of bytes is commutative and associative, so the order of summation does not matter (R57). -/
theorem foldl_add_of_perm {w : Window} {l : List Byte} (h : l.Perm (w.toList.take 8)) :
    l.foldl (fun acc b => acc + b) 0 = sum8 w := by
  have hcomm : ∀ x ∈ l, ∀ y ∈ l, ∀ acc : Byte, acc + x + y = acc + y + x :=
    fun x _ y _ acc => add_right_comm acc x y
  rw [h.foldl_eq' hcomm, take_eight_toList]
  simp [sum8]

theorem le16_eq_or (lo hi : Byte) : le16 lo hi = (lo.setWidth 16 ||| (hi.setWidth 16 <<< 8)) := by
  rw [le16_eq_append, BitVec.append_def, BitVec.shiftLeftZeroExtend_eq, BitVec.setWidth'_eq, BitVec.or_comm]

theorem lowByte_toNat (v : Half) : (lowByte v).toNat = v.toNat % 256 := by
  rw [lowByte, BitVec.toNat_ofNat, Nat.mod_mod]

theorem highByte_toNat (v : Half) : (highByte v).toNat = v.toNat / 256 := by
  rw [highByte, BitVec.toNat_ofNat, Nat.mod_eq_of_lt]
  omega

/-- Eight bytes of at most 255 each (R55 (e)). -/
theorem exactSum_le (w : Window) : exactSum w ≤ 2040 := by
  unfold exactSum
  omega

/-- Two header bytes of `0x59` and six others of at most 255 each (R55 (e)). -/
theorem exactSum_bounds_of_header {w : Window} (h0 : w[0] = 0x59) (h1 : w[1] = 0x59) :
    178 ≤ exactSum w ∧ exactSum w ≤ 1708 := by
  have hd : (0x59 : Byte).toNat = 89 := rfl
  rw [exactSum, h0, h1, hd]
  omega

/-- The extracted Frame as numbers (R56, R58). -/
theorem parseFields_spec (w : Window) :
    (parseFields w).distance.toNat = w[2].toNat + 256 * w[3].toNat ∧
    (parseFields w).strength.toNat = w[4].toNat + 256 * w[5].toNat ∧
    (parseFields w).integrationTime = w[6] :=
  ⟨le16_toNat _ _, le16_toNat _ _, rfl⟩

/-! ### The pure functions as instructions (R54, R55, R56, R61) -/

/-- `PARSE` where its precondition holds. -/
theorem exec_parse_of_ok {s : State} (hh : headerOk s.block.buf = true)
    (hs : checksumOk s.block.buf = true) :
    exec .parse s = .next (s.gives (.frame (parseFields s.block.buf))) := by
  simp [exec, execParse, Block.hdrOk, Block.csumOk, hh, hs]

/-- `PARSE` where its precondition fails (U1). -/
theorem exec_parse_of_not_ok {s : State}
    (h : headerOk s.block.buf = false ∨ checksumOk s.block.buf = false) :
    exec .parse s = .refused .parseUnvalidated := by
  rcases h with h | h <;> simp [exec, execParse, Block.hdrOk, Block.csumOk, h]

/-- A pure function gives the same value in two states with the same buffer, or is refused in both. -/
theorem exec_pure_of_buf_eq {i : Instr} {s t : State} (hi : i = .chkhdr ∨ i = .chksum ∨ i = .parse)
    (hbuf : s.block.buf = t.block.buf) :
    (∃ v, exec i s = .next (s.gives v) ∧ exec i t = .next (t.gives v)) ∨
    (exec i s = .refused .parseUnvalidated ∧ exec i t = .refused .parseUnvalidated) := by
  rcases hi with rfl | rfl | rfl
  · have hv : s.block.hdrOk = t.block.hdrOk := congrArg headerOk hbuf
    exact .inl ⟨.hdrOk s.block.hdrOk, rfl, by rw [hv]; rfl⟩
  · have hv : s.block.csumOk = t.block.csumOk := congrArg checksumOk hbuf
    exact .inl ⟨.csumOk s.block.csumOk, rfl, by rw [hv]; rfl⟩
  · cases hh : headerOk s.block.buf with
    | false => exact .inr ⟨exec_parse_of_not_ok (.inl hh), exec_parse_of_not_ok (.inl (hbuf ▸ hh))⟩
    | true =>
      cases hs : checksumOk s.block.buf with
      | false => exact .inr ⟨exec_parse_of_not_ok (.inr hs), exec_parse_of_not_ok (.inr (hbuf ▸ hs))⟩
      | true =>
        refine .inl ⟨_, exec_parse_of_ok hh hs, ?_⟩
        rw [exec_parse_of_ok (hbuf ▸ hh) (hbuf ▸ hs), hbuf]

/-! ### `decode9` and its inverse (R60) -/

section
variable {TErr : Type} {w : Window}

theorem decode9_of_badHdr (hh : headerOk w = false) :
    decode9 (TErr := TErr) w = .err .invalidStartFrame := by
  simp [decode9, hh]

theorem decode9_ne_readError (e : TErr) : decode9 w ≠ .err (.readError e) := by
  cases hh : headerOk w with
  | false => simp [decode9_of_badHdr hh]
  | true =>
    cases hs : checksumOk w with
    | false => simp [decode9_of_badSum hh hs]
    | true => simp [decode9_of_ok hh hs]

theorem decode9_eq_ok_iff {f : Frame} : decode9 (TErr := TErr) w = .ok f ↔
    headerOk w = true ∧ checksumOk w = true ∧ parseFields w = f := by
  cases hh : headerOk w with
  | false => simp [decode9_of_badHdr hh]
  | true =>
    cases hs : checksumOk w with
    | false => simp [decode9_of_badSum hh hs]
    | true => simp [decode9_of_ok hh hs]

/-- The right checksum byte of a wire frame: the header adds up to `0xB2`, and offset 8 is not summed. -/
theorem sum8_frameBytes_toNat (d st : Half) (t r c : Byte) :
    (sum8 (frameBytes d st t r c)).toNat =
      (0xB2 + d.toNat % 256 + d.toNat / 256 + st.toNat % 256 + st.toNat / 256 + t.toNat + r.toNat) % 256 := by
  rw [sum8_toNat, ← lowByte_toNat, ← highByte_toNat, ← lowByte_toNat, ← highByte_toNat]
  rfl

/-- The header, the fields, the reserved byte and the right checksum leave a window no other byte. -/
theorem eq_frameBytes_of_decode9_ok {f : Frame} (h : decode9 (TErr := TErr) w = .ok f) :
    w = frameBytes f.distance f.strength f.integrationTime w[7]
      (sum8 (frameBytes f.distance f.strength f.integrationTime w[7] 0)) := by
  obtain ⟨hh, hs, rfl⟩ := decode9_eq_ok_iff.1 h
  have hw : frameBytes (parseFields w).distance (parseFields w).strength (parseFields w).integrationTime
      w[7] w[8] = w := frameBytes_fields hh
  rw [← (checksumOk_frameBytes_iff ..).1 (hw.symm ▸ hs), hw]

end

/-! ### The wire frame as one effect (R60, R71 (a); log entry 8) -/

/-- A wire frame met at the start of a call is the buffer that is judged. -/
theorem exec_data_fresh {d st : Half} {it r c : Byte} {s : State} (hp : s.block.ph = .awaitingBytes)
    (h0 : s.block.cnt.val = 0) :
    exec (.data d st it r c) s = .next { s with
      block := Block.settle { s.block with buf := frameBytes d st it r c, cnt := 9, ph := .headerCheck } } := by
  show execData d st it r c s = _
  exact onAcceptWrite_eq_next.2 (.inl ⟨(isAwaiting_iff _).2 hp, _, receiveWindow_fresh _ _ hp h0, rfl⟩)

end Sys2Proof.Machine

section
open Sys2Proof Sys2Proof.Machine

/-- Settles O4: truncation commutes with addition, and addition of bytes with every reordering. -/
theorem wrappingSumIsTruncatedSum : Obligations.WrappingSumIsTruncatedSum :=
  fun w => ⟨sum8_toNat w, fun _ => foldl_add_of_perm⟩

/-- Settles O5: `le16` puts the two bytes side by side. -/
theorem littleEndianComposition : Obligations.LittleEndianComposition :=
  ⟨fun lo hi => ⟨le16_toNat lo hi, le16_eq_or lo hi, lowByte_le16 lo hi, highByte_le16 lo hi⟩,
   fun v => ⟨lowByte_toNat v, highByte_toNat v, le16_lowByte_highByte v⟩⟩

/-- Settles O6: the check compares the bytes at offsets 0 and 1. -/
theorem headerCheckIsOnBothBytes : Obligations.HeaderCheckIsOnBothBytes := by
  refine ⟨headerOk_iff, fun w w' h0 h1 => ?_⟩
  rw [Bool.eq_iff_iff, headerOk_iff, headerOk_iff, h0, h1]

/-- Settles O7: the check compares the exact sum, truncated, with offset 8. -/
theorem checksumCheckWraps : Obligations.ChecksumCheckWraps := by
  refine ⟨checksumOk_iff_exactSum, fun w h256 => ?_, exactSum_le, fun w => exactSum_bounds_of_header, rfl⟩
  rw [checksumOk_iff_exactSum, h256, ← BitVec.toNat_inj]
  exact eq_comm

/-- Settles O12: the value, or the refusal, is a function of the buffer. -/
theorem pureFunctionsReadOnlyBuf : Obligations.PureFunctionsReadOnlyBuf := by
  intro i hi s t hbuf
  rcases exec_pure_of_buf_eq hi hbuf with ⟨v, hs, ht⟩ | ⟨hs, ht⟩ <;> rw [hs, ht]
  · refine ⟨?_, nofun⟩
    rintro _ ⟨⟩
    exact ⟨rfl, rfl, _, rfl, rfl⟩
  · exact ⟨nofun, fun _ h => h⟩

/-- Settles O13: the checks in their order, and the window that a Frame and its reserved byte leave no
choice. -/
theorem decodeOfWindowByClass : Obligations.DecodeOfWindowByClass := by
  intro TErr
  refine ⟨?_, ?_, ?_, fun _ => decode9_ne_readError, ?_⟩
  · intro w h0 h1 hsum
    exact ⟨parseFields w, decode9_of_ok ((headerOk_iff w).2 ⟨h0, h1⟩) ((checksumOk_iff_exactSum w).2 hsum),
      parseFields_spec w⟩
  · intro w hh
    exact decode9_of_badHdr ((headerOk_eq_false_iff w).2 hh)
  · intro w h0 h1 hsum
    exact decode9_of_badSum ((headerOk_iff w).2 ⟨h0, h1⟩) ((checksumOk_eq_false_iff_exactSum w).2 hsum)
  · intro f r
    refine ⟨sum8 (frameBytes f.distance f.strength f.integrationTime r 0), sum8_frameBytes_toNat .., ?_, ?_⟩
    · exact decode9_eq_ok_iff.2
        ⟨headerOk_frameBytes .., (checksumOk_frameBytes_iff ..).2 rfl, parseFields_frameBytes ..⟩
    · rintro w rfl hw
      exact eq_frameBytes_of_decode9_ok hw

/-- Settles O30: the header of a wire frame is right, and so is the checksum of a well-formed one. -/
theorem dataFrameIsParsed : Obligations.DataFrameIsParsed := by
  intro d st it r c s hp h0 hwf
  have hs : checksumOk (frameBytes d st it r c) = true := hwf
  rw [exec_data_fresh hp h0]
  rcases settle_cases { s.block with buf := frameBytes d st it r c, cnt := 9, ph := .headerCheck } rfl with
    ⟨hh, _⟩ | ⟨_, hbad, _⟩ | ⟨_, _, e⟩
  · simp at hh
  · simp [hs] at hbad
  · simp [e]

/-- Settles O31: the header of a wire frame is right, so its checksum is judged. -/
theorem dataWithWrongChecksumFails : Obligations.DataWithWrongChecksumFails := by
  intro d st it r c s hp h0 hwf
  have hs : checksumOk (frameBytes d st it r c) = false := hwf
  rw [exec_data_fresh hp h0]
  rcases settle_cases { s.block with buf := frameBytes d st it r c, cnt := 9, ph := .headerCheck } rfl with
    ⟨hh, _⟩ | ⟨_, _, e⟩ | ⟨_, hok, _⟩
  · simp at hh
  · rw [e]
  · simp [hs] at hok

/-- Settles O8: the value given is `hdr_ok`. -/
theorem chkhdrGivesHeaderCheck : Obligations.ChkhdrGivesHeaderCheck :=
  fun s => ⟨s.block.hdrOk, rfl, headerOk_iff s.block.buf⟩

/-- Settles O9: the value given is `csum_ok`. -/
theorem chksumGivesChecksumCheck : Obligations.ChksumGivesChecksumCheck :=
  fun s => ⟨s.block.csumOk, rfl, checksumOk_iff_exactSum s.block.buf⟩

/-- Settles O10: both checks pass, so the value given is the extracted Frame. -/
theorem parseGivesFields : Obligations.ParseGivesFields := by
  intro s h0 h1 hsum
  exact ⟨parseFields s.block.buf,
    exec_parse_of_ok ((headerOk_iff _).2 ⟨h0, h1⟩) ((checksumOk_iff_exactSum _).2 hsum),
    parseFields_spec s.block.buf⟩

/-- Settles O11: one of the two checks fails. -/
theorem parseUnvalidatedIsRefused : Obligations.ParseUnvalidatedIsRefused := by
  intro s h
  rw [← or_assoc, ← headerOk_eq_false_iff, ← checksumOk_eq_false_iff_exactSum] at h
  exact exec_parse_of_not_ok h

end

/-! ## Proofs: the step rules one by one, and whole calls (spec/41_frame_reader.md) -/

namespace Sys2Proof.Machine

/-! ### Each step rule where its guard holds (R62 to R68) -/

section
variable {s : State}

/-- Both spellings of `START` are one rule (R63). -/
theorem exec_start_of_accepted {i : Instr} (hi : i = .decodeSp ∨ i = .decode)
    (h : s.block.ph = .idle ∨ s.block.ph = .parsed ∨ s.block.ph = .failed) :
    exec i s = .next { s with block := s.block.startCall } := by
  have ha := (acceptsStart_iff _).2 h
  rcases hi with rfl | rfl <;> exact onAccept_eq_next.2 (.inl ⟨ha, rfl⟩)

theorem exec_cancel_of_awaiting (hp : s.block.ph = .awaitingBytes) :
    exec .cancel s = .next { s with block := s.block.abandon } :=
  onAccept_eq_next.2 (.inl ⟨(isAwaiting_iff _).2 hp, rfl⟩)

theorem exec_rxfail_of_awaiting (e : Config.ErrBits) (hp : s.block.ph = .awaitingBytes) :
    exec (.rxfail e) s = .next { s with block := s.block.fail (.readError e) } := by
  show execRxfail e s = _
  exact onAccept_eq_next.2 (.inl ⟨(isAwaiting_iff _).2 hp, rfl⟩)

theorem exec_hdrstep_of_headerCheck (hp : s.block.ph = .headerCheck) :
    exec .hdrstep s = .next { s with block := s.block.judgeHeader } :=
  onAccept_eq_next.2 (.inl ⟨by simp [hp], rfl⟩)

theorem exec_csumstep_of_checksumCheck (hp : s.block.ph = .checksumCheck) :
    exec .csumstep s = .next { s with block := s.block.judgeChecksum } :=
  onAccept_eq_next.2 (.inl ⟨by simp [hp], rfl⟩)

/-! ### The blanks of the acceptance table (R70) -/

theorem exec_data_of_not_awaiting {d st : Half} {it r c : Byte} (hp : s.block.ph ≠ .awaitingBytes) :
    exec (.data d st it r c) s = .next s := by
  show execData d st it r c s = _
  exact onAcceptWrite_eq_next.2 (.inr ⟨isAwaiting_of_ne hp, rfl⟩)

theorem noStep_of_not_accepted {i : Instr} (hi : isStep i = true)
    (h : accepts i s.block.ph = false) : NoStep i s := by
  intro t ht
  rw [exec_of_not_accepted hi h] at ht
  cases ht
  rfl

/-- No event of a channel is accepted while the window is judged. -/
theorem noStep_channelEvent_of_checking {i : Instr} (hi : isChannelEvent i = true)
    (hp : s.block.ph = .headerCheck ∨ s.block.ph = .checksumCheck) : NoStep i s := by
  refine noStep_of_not_accepted (by simp [isStep, hi]) ?_
  cases i with
  | data | chkhdr | chksum | parse | hdrstep | csumstep | reset => cases hi
  | decodeSp | decode | cancel | rxbyte | rxfail => rcases hp with hp | hp <;> rw [hp] <;> rfl

/-- No `START` while busy (R62). -/
theorem not_acceptsStart_of_busy (h : s.block.busy = true) : s.block.ph.acceptsStart = false := by
  rw [acceptsStart_eq_not_busy, h]
  rfl

/-! ### The block alone, when the turns are used up (R75, R97, R99) -/

/-- The codes of `ph` that select an internal step. -/
theorem decode_phase_eq_ok_iff {c : BitVec 3} {i : Instr} :
    decode (.phase c) = .ok i ↔ (c = 2 ∧ i = .hdrstep) ∨ (c = 3 ∧ i = .csumstep) := by
  simp only [decode, decodePhase, beq_iff_eq]
  split_ifs with h2 h3
  · simp [h2, eq_comm]
  · simp [h3, eq_comm]
  · simp only [false_iff]
    tauto

theorem State.passTurn_of_no_turns (h : s.env.turns = []) : s.passTurn = s := by
  have hturns : s.env.turns.tail = s.env.turns := by rw [h]; rfl
  rw [State.passTurn, hturns]

theorem step_of_no_turns {i : Instr} (h : s.env.turns = [])
    (hd : decode (.phase s.block.ph.code) = .ok i) : step s = exec i s := by
  have ho : s.offered = some (.phase s.block.ph.code) := by simp only [State.offered, h]
  simp only [step, ho, hd, State.take, State.passTurn_of_no_turns h]

/-- The block waits: its phase selects no internal step. -/
theorem step_of_no_turns_awaiting (h : s.env.turns = []) (hp : s.block.ph = .awaitingBytes) :
    step s = .next s := by
  have ho : s.offered = some (.phase 1) := by simp only [State.offered, h, hp, Phase.code]
  have hd : decode (.phase 1) = .error .noInternalStep := rfl
  simp only [step, ho, hd, State.take, State.passTurn_of_no_turns h]

/-! ### A turn of an agent, by what its instruction does to the block -/

/-- The offered instruction moves the block of the state whose word was taken as it moves the block of
this state (R9). -/
theorem step_of_offered {w : ChanWord} {i : Instr} {b : Block Config.ErrBits} (ho : s.offered = some w)
    (hd : decode w = .ok i) (h : exec i s = .next { s with block := b }) :
    step s = .next { s.take w with block := b } := by
  obtain ⟨_, e⟩ := exec_step_reads_block (s := s.take w) (offered_isStep ho hd) (State.take_block s w).symm h
  simp only [step, ho, hd, e]

theorem step_caller_of_accepted {c : BitVec 1} {cs : List (BitVec 1)} {ts : List Turn}
    {b : Block Config.ErrBits} (hcmd : s.env.cmd = c :: cs) (hturn : s.env.turns = .caller :: ts)
    (ha : accepts (decodeCmd c) s.block.ph = true)
    (h : exec (decodeCmd c) s = .next { s with block := b }) :
    step s = .next { s with block := b, env := { s.env with cmd := cs, turns := ts } } := by
  have ho : s.offered = some (.cmd c) := by simp [State.offered, hturn, hcmd]
  rw [step_of_offered ho rfl h]
  simp [State.take, State.passTurn, Block.takes, ha, hcmd, hturn]

/-- A command that is not accepted waits (R70). -/
theorem step_caller_of_not_accepted {c : BitVec 1} {cs : List (BitVec 1)} {ts : List Turn}
    (hcmd : s.env.cmd = c :: cs) (hturn : s.env.turns = .caller :: ts)
    (ha : accepts (decodeCmd c) s.block.ph = false) :
    step s = .next { s with env := { s.env with turns := ts } } := by
  have ho : s.offered = some (.cmd c) := by simp [State.offered, hturn, hcmd]
  rw [step_of_offered (b := s.block) ho rfl (exec_of_not_accepted (offered_isStep ho rfl) ha)]
  simp [State.take, State.passTurn, Block.takes, ha, hturn]

/-- The caller's turn with `START` at the head of its commands, where it is accepted. -/
theorem step_caller_start {cs : List (BitVec 1)} {ts : List Turn} (hcmd : s.env.cmd = 0 :: cs)
    (hturn : s.env.turns = .caller :: ts)
    (h : s.block.ph = .idle ∨ s.block.ph = .parsed ∨ s.block.ph = .failed) :
    step s = .next { s with block := s.block.startCall, env := { s.env with cmd := cs, turns := ts } } :=
  step_caller_of_accepted hcmd hturn ((acceptsStart_iff _).2 h) (exec_start_of_accepted (.inl rfl) h)

/-- The caller's turn with `CANCEL` at the head of its commands, where it is accepted. -/
theorem step_caller_cancel {cs : List (BitVec 1)} {ts : List Turn} (hcmd : s.env.cmd = 1 :: cs)
    (hturn : s.env.turns = .caller :: ts) (hp : s.block.ph = .awaitingBytes) :
    step s = .next { s with block := s.block.abandon, env := { s.env with cmd := cs, turns := ts } } :=
  step_caller_of_accepted hcmd hturn ((isAwaiting_iff _).2 hp) (exec_cancel_of_awaiting hp)

/-- The byte source's turn with a failure at the head of its words, where it is accepted. -/
theorem step_source_fail {v : Byte} {e : Config.ErrBits} {rs : List RxWord} {ts : List Turn}
    (hrx : s.env.rx = ⟨1, v, e⟩ :: rs) (hturn : s.env.turns = .source :: ts)
    (hp : s.block.ph = .awaitingBytes) :
    step s = .next { s with
      block := s.block.fail (.readError e), env := { s.env with rx := rs, turns := ts } } := by
  have ho : s.offered = some (.rx ⟨1, v, e⟩) := by simp [State.offered, hturn, hrx]
  rw [step_of_offered ho rfl (exec_rxfail_of_awaiting e hp)]
  simp [State.take, State.passTurn, Block.takes, (isAwaiting_iff _).2 hp, hrx, hturn]

end

/-! ### The judging effects by the check they evaluate (R66, R67) -/

section
variable {TErr : Type} {b : Block TErr}

theorem judgeHeader_of_ok (hh : headerOk b.buf = true) : b.judgeHeader = { b with ph := .checksumCheck } :=
  if_pos hh

theorem judgeHeader_of_not_ok (hh : headerOk b.buf = false) :
    b.judgeHeader = { b with ph := .failed, err := .invalidStartFrame } :=
  if_neg (by simp [Block.hdrOk, hh])

theorem judgeChecksum_of_ok (hs : checksumOk b.buf = true) :
    b.judgeChecksum = { b.loadFrame (parseFields b.buf) with ph := .parsed } :=
  if_pos hs

theorem judgeChecksum_of_not_ok (hs : checksumOk b.buf = false) :
    b.judgeChecksum = { b with ph := .failed, err := .invalidChecksum } :=
  if_neg (by simp [Block.csumOk, hs])

end

/-! ### The result of a judged window (R60, R71 (a)) -/

section
variable {TErr : Type} {b : Block TErr}

theorem Block.HasRead.buf_eq {w : Window} (h : b.HasRead w.toList) : b.buf = w := by
  refine Vector.ext fun k hk => ?_
  rw [h.2 k (by simpa using hk) hk, Vector.getElem_toList]

@[simp] theorem Block.settle_buf : b.settle.buf = b.buf := by
  simp only [Block.settle, apply_ite Block.buf, Block.judgeHeader_buf, Block.judgeChecksum_buf, ite_self]

theorem Block.settle_cnt (hp : b.ph = .headerCheck) : b.settle.cnt = b.cnt := by
  rcases settle_cases b hp with ⟨_, e⟩ | ⟨_, _, e⟩ | ⟨_, _, e⟩ <;> rw [e]

/-- The call of a full buffer returns `decode9` of it. -/
theorem Block.settle_result (hp : b.ph = .headerCheck) : b.settle.result = some (decode9 b.buf) := by
  rcases settle_cases b hp with ⟨hh, e⟩ | ⟨hh, hs, e⟩ | ⟨hh, hs, e⟩ <;> rw [e]
  · rw [decode9_of_badHdr hh]; rfl
  · rw [decode9_of_badSum hh hs]; rfl
  · rw [decode9_of_ok hh hs]; rfl

theorem Block.settle_done (hp : b.ph = .headerCheck) : b.settle.done = true := by
  rcases settle_cases b hp with ⟨_, e⟩ | ⟨_, _, e⟩ | ⟨_, _, e⟩ <;> rw [e] <;> rfl

end

/-! ### A wire frame as instructions (R71 (a)) -/

/-- A run of instructions in two parts. -/
theorem runInstrs_append {is js : List Instr} : ∀ {s t : State}, runInstrs is s = .next t →
    runInstrs (is ++ js) s = runInstrs js t := by
  induction is with
  | nil => intro s t h; cases h; rfl
  | cons i is ih =>
    intro s t h
    cases he : exec i s with
    | next u =>
      simp only [runInstrs, he, List.cons_append] at h ⊢
      exact ih h
    | fault f => simp [runInstrs, he] at h
    | refused r => simp [runInstrs, he] at h

/-- An event under a guard as one next state. -/
theorem onAccept_eq_block (s : State) (a : Bool) (f : Block Config.ErrBits → Block Config.ErrBits) :
    s.onAccept a f = .next { s with block := if a then f s.block else s.block } := by
  cases a <;> rfl

/-- The two internal steps settle the block, whatever its phase. -/
theorem runInstrs_hdrstep_csumstep (s : State) :
    runInstrs [.hdrstep, .csumstep] s = .next { s with block := s.block.settle } := by
  simp only [runInstrs, exec, execHdrstep, execCsumstep, onAccept_eq_block, Block.settle]

/-- With room for one byte the whole window is received without a fault. -/
theorem receiveAll_window_ok {TErr : Type} {b : Block TErr} (w : Window) (hp : b.ph = .awaitingBytes)
    (hc : b.cnt.val < 9) : ∃ b', b.receiveAll w.toList = .ok b' := by
  obtain ⟨_, _, _, e⟩ := receiveWindow_eq b w hp (by omega)
  cases hall : b.receiveAll w.toList with
  | ok b' => exact ⟨b', rfl⟩
  | error f => simp [Block.receiveWindow, hall] at e

theorem exec_data_of_receiveWindow {d st : Half} {it r c : Byte} {s : State} {b : Block Config.ErrBits}
    (hp : s.block.ph = .awaitingBytes) (hb : s.block.receiveWindow (frameBytes d st it r c) = .ok b) :
    exec (.data d st it r c) s = .next { s with block := b } := by
  show execData d st it r c s = _
  exact onAcceptWrite_eq_next.2 (.inl ⟨(isAwaiting_iff _).2 hp, b, hb, rfl⟩)

/-! ### A read that fails (R71 (b)) -/

/-- Bytes that leave room for another, and the failure in place of that one. -/
theorem run_source_bytes_fail {s : State} {bs : List Byte} {xs rs : List RxWord} {ts : List Turn} {v : Byte}
    {e : Config.ErrBits} (hx : handOver xs bs) (hrx : s.env.rx = xs ++ ⟨1, v, e⟩ :: rs)
    (hturn : s.env.turns = List.replicate (bs.length + 1) .source ++ ts) (hp : s.block.ph = .awaitingBytes)
    (h8 : s.block.cnt.val + bs.length ≤ 8) :
    ∃ (buf : Window) (cnt : Fin 10), cnt.val = s.block.cnt.val + bs.length ∧
      Sys2Proof.core.run (bs.length + 1) s = .next { s with
        block := Block.fail { s.block with buf := buf, cnt := cnt } (.readError e)
        env := { s.env with rx := rs, turns := ts } } := by
  obtain ⟨buf, cnt, hcnt, _, _, _, hall⟩ := receiveAll_spec bs s.block hp (by omega) (by omega)
  refine ⟨buf, cnt, hcnt, ?_⟩
  have htaken : xs.drop (9 - s.block.cnt.val) = [] :=
    List.drop_eq_nil_of_le (by rw [handOver_length hx]; omega)
  rw [List.replicate_succ', List.append_assoc] at hturn
  have hbytes := run_source_bytes hx hrx hturn hp (by omega) hall
  rw [htaken, List.nil_append, if_neg (by omega)] at hbytes
  exact (run_add bs.length 1 hbytes).trans (run_succ 0 (step_source_fail rfl rfl rfl))

end Sys2Proof.Machine

section
open Sys2Proof Sys2Proof.Machine

/-- Settles O21: the guard is met in the three phases, and not while busy. -/
theorem startBeginsCall : Obligations.StartBeginsCall := by
  intro i s hi
  refine ⟨by rcases hi with rfl | rfl <;> rfl, fun hp => ?_, fun hbusy => ?_⟩
  · exact ⟨_, exec_start_of_accepted hi hp, rfl, rfl, rfl⟩
  · have ha := not_acceptsStart_of_busy hbusy
    rcases hi with rfl | rfl <;> exact noStep_of_not_accepted rfl ha

/-- Settles O22: the byte is written at `cnt` where there is room for it, and elsewhere stays with the byte
source. -/
theorem rxbyteStoresAtCnt : Obligations.RxbyteStoresAtCnt := by
  intro v s
  refine ⟨fun _ => rfl, fun hp h8 => ?_, fun hp => ?_⟩
  · have hroom : s.block.cnt.val < 9 := by omega
    refine ⟨⟨_, execRxbyte_eq v s hp hroom, ?_, rfl, rfl, rfl, rfl, rfl, rfl, rfl, rfl, rfl⟩, ?_⟩
    · intro k hk
      simp only [Vector.getElem_set, eq_comm]
    · intro e rs ts hrx hturn
      exact ⟨_, step_source_byte ((isAwaiting_iff _).2 hp) hrx hturn rfl (receive_eq _ v hroom), rfl⟩
  · refine ⟨noStep_of_not_accepted rfl (isAwaiting_of_ne hp), fun e rs ts _ hturn => ?_⟩
    exact ⟨_, step_source_not_awaiting (isAwaiting_of_ne hp) hturn, rfl, rfl⟩

/-- Settles O24: the failure is raised at any count, and the `START` after it empties the count, so that
the next nine bytes are the whole window. -/
theorem rxfailRaisesReadError : Obligations.RxfailRaisesReadError := by
  intro e s
  refine ⟨fun _ => rfl, fun hp => ⟨?_, fun v rs ts hrx hturn => ?_⟩, fun hp => ⟨?_, fun v rs ts _ hturn => ?_⟩⟩
  · refine ⟨_, exec_rxfail_of_awaiting e hp, rfl, rfl, ?_, fun w => ?_⟩
    · exact ⟨_, exec_start_of_accepted (.inl rfl) (.inr (.inr rfl)), rfl, rfl⟩
    · obtain ⟨b, hb, hread, hph⟩ :=
        receiveAll_startCall (s.block.fail (.readError e)) w.toList (by simp)
      refine ⟨{ s with block := b }, ?_, by simpa using hph, hread.buf_eq⟩
      rw [runInstrs_decodeSp _ _ rfl]
      exact runInstrs_rxbytes hb
  · exact ⟨_, step_source_fail hrx hturn hp, rfl⟩
  · exact noStep_of_not_accepted rfl (isAwaiting_of_ne hp)
  · exact ⟨_, step_source_not_awaiting (isAwaiting_of_ne hp) hturn, rfl, rfl⟩

/-- Settles O25: `HDRSTEP` runs by the code of its phase and has the two outcomes of the header check. -/
theorem hdrstepJudgesHeader : Obligations.HdrstepJudgesHeader := by
  intro s
  refine ⟨fun c => by simp [decode_phase_eq_ok_iff], fun hp hturn => ?_, fun hp h0 h1 => ?_, fun hp hbad => ?_,
    fun hp => ⟨fun i hi => noStep_channelEvent_of_checking hi (.inl hp), _, rfl, rfl⟩, fun hp => ?_⟩
  · exact step_of_no_turns hturn (by rw [hp]; rfl)
  · rw [exec_hdrstep_of_headerCheck hp, judgeHeader_of_ok ((headerOk_iff _).2 ⟨h0, h1⟩)]
  · rw [exec_hdrstep_of_headerCheck hp, judgeHeader_of_not_ok ((headerOk_eq_false_iff _).2 hbad)]
  · exact noStep_of_not_accepted rfl (by simp [accepts, hp])

/-- Settles O26: `CSUMSTEP` runs by the code of its phase and has the two outcomes of the checksum check. -/
theorem csumstepJudgesChecksum : Obligations.CsumstepJudgesChecksum := by
  intro s
  refine ⟨fun c => by simp [decode_phase_eq_ok_iff], fun hp hturn => ?_, fun hp hsum => ?_, fun hp hsum => ?_,
    fun hp => ⟨fun i hi => noStep_channelEvent_of_checking hi (.inr hp), _, rfl, rfl⟩, fun hp => ?_⟩
  · exact step_of_no_turns hturn (by rw [hp]; rfl)
  · obtain ⟨hdist, hstr, _⟩ := parseFields_spec s.block.buf
    refine ⟨_, _, hdist, hstr, ?_⟩
    rw [exec_csumstep_of_checksumCheck hp, judgeChecksum_of_ok ((checksumOk_iff_exactSum _).2 hsum)]
    rfl
  · rw [exec_csumstep_of_checksumCheck hp, judgeChecksum_of_not_ok ((checksumOk_eq_false_iff_exactSum _).2 hsum)]
  · exact noStep_of_not_accepted rfl (by simp [accepts, hp])

/-- Settles O27: `CANCEL` leaves an idle block, which accepts `START`. -/
theorem cancelAbandonsRead : Obligations.CancelAbandonsRead := by
  intro s
  refine ⟨rfl, fun hp => ?_, fun hp => noStep_of_not_accepted rfl (isAwaiting_of_ne hp)⟩
  exact ⟨_, exec_cancel_of_awaiting hp, rfl, rfl, rfl, exec_start_of_accepted (.inl rfl) (.inl rfl)⟩

/-- Settles O32: with room the bytes are received one after another and the internal steps settle the block;
without room the first byte stops both runs. -/
theorem dataIsItsSteps : Obligations.DataIsItsSteps := by
  intro d st it r c s hp
  by_cases hc : s.block.cnt.val < 9
  · obtain ⟨b, hb⟩ := receiveAll_window_ok (frameBytes d st it r c) hp hc
    rw [runInstrs_append (runInstrs_rxbytes hb), runInstrs_hdrstep_csumstep]
    exact exec_data_of_receiveWindow hp (by simp only [Block.receiveWindow, hb])
  · have hfull : exec (.data d st it r c) s = .fault .bufOffset := by
      show execData d st it r c s = _
      simp only [execData, State.onAcceptWrite, (isAwaiting_iff _).2 hp, receiveWindow_full _ _ hp hc, if_true]
    have hfirst : exec (.rxbyte HDR0) s = .fault .bufOffset := noNinthOffset HDR0 s hp (by omega)
    rw [hfull]
    show _ = runInstrs (.rxbyte HDR0 :: _) s
    rw [runInstrs, hfirst]

/-- Settles O34: the eleven turns and `DATA` are both what the window's bytes, received as far as there is
room for them and then settled, come to. -/
theorem frameRunsByteByByte : Obligations.FrameRunsByteByByte := by
  intro w s xs rs ts hp h8 hx hrx hturn
  obtain ⟨buf, hlow, hnew, hwindow⟩ := receiveWindow_eq s.block w hp h8
  refine ⟨_, run_frameTurns hx hrx hturn hp h8 hwindow, rfl, ?_, ?_, ?_, ?_, ?_⟩
  · simpa using hlow
  · simpa using hnew
  · rw [Block.settle_cnt rfl]
    rfl
  · rw [Block.settle_result rfl, Block.settle_buf]
  · rintro d st it r c rfl
    exact exec_data_of_receiveWindow hp hwindow

/-- Settles O35: each outcome of an atomic instruction is a row, `RXBYTE`'s and the two judging steps' in
two cases each. -/
theorem transitionsAreTheTable : Obligations.TransitionsAreTheTable := by
  intro i s t ha h
  rcases exec_cases ha h with rfl | ⟨_, v, rfl⟩ | ⟨hi, hp, rfl⟩ | ⟨rfl, hp, rfl⟩ | ⟨v, hc, rfl, hp, rfl⟩ |
    ⟨e, rfl, hp, rfl⟩ | ⟨rfl, hp, rfl⟩ | ⟨rfl, hp, rfl⟩ | ⟨rfl, rfl⟩
  · exact .inl rfl
  · exact .inl rfl
  · exact .inr (.inl ⟨hi, (acceptsStart_iff _).1 hp, rfl⟩)
  · exact .inr (.inr (.inr (.inr (.inr (.inl ⟨rfl, hp, rfl⟩)))))
  · by_cases hlast : s.block.cnt.val = 8
    · exact .inr (.inr (.inr (.inl ⟨v, rfl, hp, hlast, by simp [hlast]⟩)))
    · exact .inr (.inr (.inl ⟨v, by omega, rfl, hp, by simp [hlast, hp]⟩))
  · exact .inr (.inr (.inr (.inr (.inl ⟨e, rfl, hp, rfl⟩))))
  · rcases judgeHeader_cases s.block with ⟨hh, e⟩ | ⟨hh, e⟩
    · exact .inr (.inr (.inr (.inr (.inr (.inr (.inl ⟨rfl, hp, hh, e⟩))))))
    · exact .inr (.inr (.inr (.inr (.inr (.inr (.inr (.inl ⟨rfl, hp, hh, e⟩)))))))
  · rcases judgeChecksum_cases s.block with ⟨hs, e⟩ | ⟨hs, e⟩
    · exact .inr (.inr (.inr (.inr (.inr (.inr (.inr (.inr (.inl ⟨rfl, hp, hs, e⟩))))))))
    · exact .inr (.inr (.inr (.inr (.inr (.inr (.inr (.inr (.inr (.inl ⟨rfl, hp, hs, e⟩)))))))))
  · exact .inr (.inr (.inr (.inr (.inr (.inr (.inr (.inr (.inr (.inr ⟨rfl, rfl⟩)))))))))

/-- Settles O46: in each order the first turn decides whether the second is still accepted. -/
theorem cancelAndByteInEitherOrder : Obligations.CancelAndByteInEitherOrder := by
  intro s v e cs rs ts hp h8 hcmd hrx
  refine ⟨fun hturn => ?_, fun hturn => ?_⟩
  · have hrun := (run_succ 1 (step_caller_cancel hcmd hturn hp)).trans
      (run_succ 0 (step_source_not_awaiting rfl rfl))
    exact ⟨_, hrun, rfl, rfl, hrx, rfl⟩
  · have hroom : s.block.cnt.val < 9 := by omega
    have hbyte := run_succ 1
      (step_source_byte ((isAwaiting_iff _).2 hp) hrx hturn rfl (receive_eq _ v hroom))
    by_cases hlast : s.block.cnt.val = 8
    · have hrun := hbyte.trans
        (run_succ 0 (step_caller_of_not_accepted hcmd rfl (by simp only [hlast, if_true]; rfl)))
      exact ⟨_, hrun, rfl, rfl, by simp [hlast], by simp [hlast, hcmd]⟩
    · have hrun := hbyte.trans (run_succ 0 (step_caller_cancel hcmd rfl (by simp [hlast, hp])))
      exact ⟨_, hrun, rfl, rfl, by simp [hlast], by simp [hlast]⟩

/-- Settles O47: a step of the waiting block is the same state again. -/
theorem waitsWithoutBound : Obligations.WaitsWithoutBound := by
  intro s k hp hturn
  induction k with
  | zero => rfl
  | succ k ih => rw [run_succ k (step_of_no_turns_awaiting hturn hp), ih]

/-- Settles O53: `START` makes the block one at the start of a call, and the eleven turns of the window
settle exactly its bytes. -/
theorem wholeCallReturnsDecodedWindow : Obligations.WholeCallReturnsDecodedWindow := by
  intro s w cs xs rs ts hp hcmd hx hrx hturn
  have hwindow := receiveWindow_fresh s.block.startCall w rfl rfl
  have hdrop : xs.drop 9 = [] := List.drop_eq_nil_of_le (by rw [handOver_length hx]; simp)
  have hrun := (run_succ 11 (step_caller_start hcmd hturn hp)).trans
    (run_frameTurns hx hrx rfl rfl (Nat.zero_le 8) hwindow)
  refine ⟨_, hrun, Block.settle_result rfl, Block.settle_done rfl, Block.settle_buf, ?_⟩
  simp [hdrop]

/-- Settles O54: `START`, the bytes, which leave room for another, and the failure in place of that one. -/
theorem failedReadReturnsReadError : Obligations.FailedReadReturnsReadError := by
  intro s bs v e cs xs rs ts hp hlen hcmd hx hrx hturn
  obtain ⟨buf, cnt, hcnt, hread⟩ := run_source_bytes_fail (s := { s with
    block := s.block.startCall
    env := { s.env with cmd := cs, turns := List.replicate (bs.length + 1) .source ++ ts } })
    hx hrx rfl rfl (by simpa using hlen)
  have hrun := (run_succ (bs.length + 1) (step_caller_start hcmd hturn hp)).trans hread
  exact ⟨_, hrun, rfl, rfl, by simpa using hcnt, rfl, rfl, rfl, rfl⟩

/-- Settles O29: no guard is met, so the state is answered as it is. -/
theorem blankInAcceptanceTableWaits : Obligations.BlankInAcceptanceTableWaits := by
  intro s
  refine ⟨fun hbusy => ?_, fun hp => ?_, fun hp => ?_, fun hp => ?_⟩
  · have ha := not_acceptsStart_of_busy hbusy
    exact ⟨exec_of_not_accepted rfl ha, exec_of_not_accepted rfl ha⟩
  · have ha := isAwaiting_of_ne hp
    exact ⟨exec_of_not_accepted rfl ha, fun _ => exec_of_not_accepted rfl ha,
      fun _ => exec_of_not_accepted rfl ha, fun _ _ _ _ _ => exec_data_of_not_awaiting hp⟩
  · exact exec_of_not_accepted rfl (by simp [accepts, hp])
  · exact exec_of_not_accepted rfl (by simp [accepts, hp])

/-- Settles O56: `START` leaves the phase, the count and the error kind of a call that has read nothing. -/
theorem startForgetsEarlierCalls : Obligations.StartForgetsEarlierCalls :=
  fun _ _ _ _ hi hj hs ht =>
    ⟨_, _, exec_start_of_accepted hi hs, exec_start_of_accepted hj ht, Block.SameCall.startCall⟩

end

/-! ## Proofs: no run stops, and how `FAILED` is entered and left (spec/60_exceptions.md) -/

namespace Sys2Proof.Machine

/-! ### No fault and no refusal (R76) -/

/-- A step of R9 answers a next state where a byte that is accepted finds room (R25). -/
theorem exec_step_completes {i : Instr} {s : State} (hi : isStep i = true)
    (hroom : s.block.ph = .awaitingBytes → s.block.cnt.val < 9) : ∃ t, exec i s = .next t := by
  cases i with
  | data | chkhdr | chksum | parse => cases hi
  | decodeSp | decode | cancel | hdrstep | csumstep => exact ⟨_, onAccept_eq_block s _ _⟩
  | rxfail e => exact ⟨_, onAccept_eq_block s _ fun b => b.fail (.readError e)⟩
  | reset => exact ⟨_, rfl⟩
  | rxbyte v =>
    by_cases hp : s.block.ph = .awaitingBytes
    · exact ⟨_, execRxbyte_eq v s hp (hroom hp)⟩
    · exact ⟨s, exec_of_not_accepted rfl (isAwaiting_of_ne hp)⟩

/-- While bytes are awaited the invariant leaves room for the next one (R20 (b)). -/
theorem Block.Inv.room {TErr : Type} {b : Block TErr} (h : b.Inv) (hp : b.ph = .awaitingBytes) :
    b.cnt.val < 9 :=
  Nat.lt_succ_of_le (h.awaiting hp).1

/-- From the invariant a step of the closed system meets no fault and no refusal. -/
theorem step_completes {s : State} (hinv : s.block.Inv) : ∃ t, step s = .next t := by
  rcases step_cases s with ⟨_, hpass⟩ | ⟨w, i, ho, hd, hrun⟩
  · exact ⟨_, hpass⟩
  · rw [hrun]
    refine exec_step_completes (offered_isStep ho hd) ?_
    rw [State.take_block]
    exact hinv.room

/-! ### The entry into `FAILED` (R76 to R79, R83) -/

/-- An atomic instruction that enters `FAILED` is the raiser of one of the three errors, in its phase and
under its condition, and writes only the cause. -/
theorem exec_enters_failed_cases {i : Instr} {s t : State} (ha : isAtomic i = true)
    (h : exec i s = .next t) (hs : s.block.ph ≠ .failed) (ht : t.block.ph = .failed) :
    (i = .hdrstep ∧ s.block.ph = .headerCheck ∧ headerOk s.block.buf = false ∧
      t = { s with block := { s.block with ph := .failed, err := .invalidStartFrame } }) ∨
    (i = .csumstep ∧ s.block.ph = .checksumCheck ∧ checksumOk s.block.buf = false ∧
      t = { s with block := { s.block with ph := .failed, err := .invalidChecksum } }) ∨
    (∃ e, i = .rxfail e ∧ s.block.ph = .awaitingBytes ∧
      t = { s with block := { s.block with ph := .failed, err := .readError, terr := e } }) := by
  rcases exec_cases ha h with rfl | ⟨_, v, rfl⟩ | ⟨_, _, rfl⟩ | ⟨_, _, rfl⟩ | ⟨v, _, _, _, rfl⟩ |
    ⟨e, hi, hp, rfl⟩ | ⟨hi, hp, rfl⟩ | ⟨hi, hp, rfl⟩ | ⟨_, rfl⟩
  -- the unchanged state and the pure functions leave the phase
  · exact absurd ht hs
  · exact absurd ht hs
  -- `START`, `CANCEL` and `RXBYTE` enter other phases
  · cases ht
  · cases ht
  · simp only at ht
    split at ht <;> cases ht
  · exact .inr (.inr ⟨e, hi, hp, rfl⟩)
  · rcases judgeHeader_cases s.block with ⟨_, e⟩ | ⟨hh, e⟩ <;> rw [e] at ht ⊢
    · cases ht
    · exact .inl ⟨hi, hp, hh, rfl⟩
  · rcases judgeChecksum_cases s.block with ⟨_, e⟩ | ⟨hc, e⟩ <;> rw [e] at ht ⊢
    · cases ht
    · exact .inr (.inl ⟨hi, hp, hc, rfl⟩)
  · cases ht

/-! ### Leaving `FAILED` (R85 to R87) -/

/-- A step of R9 moves the block to one block only. -/
theorem block_eq_of_exec {i : Instr} {s : State} {b b' : Block Config.ErrBits}
    (h : exec i s = .next { s with block := b }) (h' : exec i s = .next { s with block := b' }) : b = b' := by
  rw [h] at h'
  injection h' with hstate
  exact congrArg State.block hstate

/-- Of the words offered in `FAILED` the block accepts `START` and the reset line only. -/
theorem offered_accepted_of_failed {s : State} {w : ChanWord} {i : Instr} (ho : s.offered = some w)
    (hd : decode w = .ok i) (hp : s.block.ph = .failed) (ha : accepts i s.block.ph = true) :
    (w = .cmd 0 ∧ i = .decodeSp) ∨ (w = .resetLine ∧ i = .reset) := by
  rw [hp] at ha
  rcases offered_decode_cases ho hd with ⟨c, rfl, rfl⟩ | ⟨x, _, rfl⟩ | ⟨_, rfl⟩ | ⟨_, rfl⟩ | ⟨hw, hi⟩
  · rcases decodeCmd_cases c with ⟨rfl, e⟩ | ⟨_, e⟩
    · exact .inl ⟨rfl, e⟩
    · rw [e] at ha
      cases ha
  · rw [accepts_decodeRx] at ha
    cases ha
  · cases ha
  · cases ha
  · exact .inr ⟨hw, hi⟩

end Sys2Proof.Machine

section
open Sys2Proof Sys2Proof.Machine

/-- Settles O50, by induction over the run: the invariant lets every step answer a next state, and every
step keeps it. -/
theorem noRunStops : Obligations.NoRunStops := by
  intro s k hinv
  have hstep : ∀ s : State, s.block.Inv → ∃ t, step s = .next t ∧ t.block.Inv := by
    intro s hs
    obtain ⟨t, ht⟩ := step_completes hs
    exact ⟨t, ht, stepKeepsInvariant s t hs ht⟩
  obtain ⟨t, hrun, _⟩ := run_of_step_keeps hstep k s hinv
  exact ⟨t, hrun⟩

/-- Settles O36: each of the three entries writes its cause alone, and the result is read off it. -/
theorem errorEntryWritesOnlyTheCause : Obligations.ErrorEntryWritesOnlyTheCause := by
  intro i s t ha h hs ht
  rcases exec_enters_failed_cases ha h hs ht with ⟨_, _, _, rfl⟩ | ⟨_, _, _, rfl⟩ | ⟨e, hi, _, rfl⟩
  · exact .inl ⟨rfl, rfl⟩
  · exact .inr (.inl ⟨rfl, rfl⟩)
  · exact .inr (.inr ⟨e, hi, rfl, rfl⟩)

/-- Settles O37: the three entries have three different codes, so the code tells the raiser. -/
theorem eachErrorHasOneRaiser : Obligations.EachErrorHasOneRaiser := by
  intro i s t ha h hs ht
  rcases exec_enters_failed_cases ha h hs ht with
    ⟨hi, hp, hbad, rfl⟩ | ⟨hi, hp, hbad, rfl⟩ | ⟨e, hi, hp, rfl⟩
  · exact ⟨fun _ => ⟨hi, hp, (headerOk_eq_false_iff _).1 hbad⟩, nofun, nofun⟩
  · exact ⟨nofun, fun _ => ⟨hi, hp, (checksumOk_eq_false_iff_exactSum _).1 hbad⟩, nofun⟩
  · exact ⟨nofun, nofun, fun _ => ⟨e, hi, hp, rfl⟩⟩

/-- Settles O41: in `FAILED` an offer that is accepted is `START` or the reset line, and any other leaves
the block. -/
theorem failedIsLeftOnlyByStartOrReset : Obligations.FailedIsLeftOnlyByStartOrReset := by
  intro s t hp h
  rcases step_block_cases h with rfl | ⟨w, i, ho, hd, hi, _, hexec⟩
  · exact .inl rfl
  · cases ha : accepts i s.block.ph with
    | false => exact .inl (block_eq_of_exec hexec (exec_of_not_accepted hi ha))
    | true =>
      rcases offered_accepted_of_failed ho hd hp ha with ⟨rfl, rfl⟩ | ⟨rfl, rfl⟩
      · rw [block_eq_of_exec hexec (exec_start_of_accepted (.inl rfl) (.inr (.inr hp)))]
        exact .inr (.inl ⟨ho, rfl, rfl⟩)
      · rw [block_eq_of_exec hexec (b' := s.block.resetSequencer) rfl]
        exact .inr (.inr ⟨ho, rfl, rfl⟩)

end

/-! ## Proofs: the reset line (spec/70_reset_and_hazards.md) -/

namespace Sys2Proof.Machine

/-- No word of the CMD channel is the reset line (R91). -/
theorem decodeCmd_ne_reset (c : BitVec 1) : decodeCmd c ≠ .reset := by
  rcases decodeCmd_cases c with ⟨_, e⟩ | ⟨_, e⟩ <;> rw [e] <;> nofun

/-- The turn of the reset line resets the sequencer and is over; the two channels are as they were (R91). -/
theorem step_reset_turn {s : State} {ts : List Turn} (hturn : s.env.turns = .reset :: ts) :
    step s = .next { s with block := s.block.resetSequencer, env := { s.env with turns := ts } } := by
  have ho : s.offered = some .resetLine := by simp [State.offered, hturn]
  rw [step_of_offered ho rfl (b := s.block.resetSequencer) rfl]
  simp [State.take, State.passTurn, hturn]

end Sys2Proof.Machine

section
open Sys2Proof Sys2Proof.Machine

/-- Settles O28: `exec` resets the sequencer under no guard, and the reset line's turn offers its word
without looking at the channels. -/
theorem resetAcceptedEverywhere : Obligations.ResetAcceptedEverywhere := by
  intro s
  refine ⟨⟨_, rfl, rfl, rfl, rfl⟩, fun c hc => ?_, fun ts hturn => ?_⟩
  · exact decodeCmd_ne_reset c (Except.ok.inj hc)
  · exact ⟨_, step_reset_turn hturn, rfl, rfl, rfl⟩

end
